-- ==== Sys2Proof/Word.lean ====
section
/-! DEFINITION. The words of MyArdu TFPS: the widths the spec gives to bytes, ids, registers and commands
(spec/00_scope.md section 5, spec/30_encoding.md R35). The widths that are parameters (spec/00_scope.md R7) stand in
Config.lean. -/

namespace Sys2Proof

/-- `u8`: a data byte, a header byte, a poll byte, a register index. -/
abbrev Byte := BitVec 8

/-- `u16`: a data id, the value of a 16-bit record. -/
abbrev Half := BitVec 16

/-- `u32`: a register of the register space, a payload word, the operand C, the DATA of a response. -/
abbrev Word := BitVec 32

/-- A command word, format CMD64 (spec/30_encoding.md R35). -/
abbrev CmdWord := BitVec 64

end Sys2Proof
end

