-- ==== Sys2Proof/Syntax.lean ====
section
/-! DEFINITION. The fourteen commands of spec/30_encoding.md R36 with the operands each uses (R37). -/

namespace Sys2Proof

/-- A command, one constructor for each row of spec/opcode_table.json. Operand fields a command does not use are
not part of it: the block ignores them (spec/30_encoding.md R38(b)). -/
inductive Instr where
  /-- `FBEGIN` (0x01): begin a frame. -/
  | fbegin
  /-- `FBYTE b` (0x02): one data byte. -/
  | fbyte (b : Byte)
  /-- `FW16 hdr, id, value` (0x03): a record with a 16-bit value. -/
  | fw16 (hdr : Byte) (id : Half) (value : Half)
  /-- `FW32 hdr, id, value` (0x04): a record with a 32-bit value. -/
  | fw32 (hdr : Byte) (id : Half) (value : Word)
  /-- `FEND` (0x05): end the frame. -/
  | fend
  /-- `PACK i, value` (0x10). -/
  | pack (i : Byte) (value : Word)
  /-- `UNPACK i, word` (0x11). -/
  | unpack (i : Byte) (word : Word)
  /-- `DSPLIT k, value` (0x12). -/
  | dsplit (k : Byte) (value : Word)
  /-- `TICK chunk_pending` (0x20): only bit 0 of A counts. -/
  | tick (chunkPending : Bool)
  /-- `SETHM mask` (0x21). -/
  | sethm (mask : Word)
  /-- `POLL byte` (0x22). -/
  | poll (b : Byte)
  /-- `CFGWR reg, value` (0x30). -/
  | cfgwr (reg : Byte) (value : Word)
  /-- `CFGRD reg` (0x31). -/
  | cfgrd (reg : Byte)
  /-- `INIT` (0x32). -/
  | init
deriving DecidableEq, Repr

end Sys2Proof
end

