-- ==== Sys2Proof/Decode.lean ====
section
/-! DEFINITION. The command word, format CMD64 (spec/30_encoding.md R35 to R38): fields, decoder and encoder. -/

namespace Sys2Proof

/-- `OPC`, bits 63:56. -/
def opcField (w : CmdWord) : Byte := w.extractLsb' 56 8

/-- `A`, bits 55:48. -/
def aField (w : CmdWord) : Byte := w.extractLsb' 48 8

/-- `B`, bits 47:32. -/
def bField (w : CmdWord) : Half := w.extractLsb' 32 16

/-- `C`, bits 31:0. -/
def cField (w : CmdWord) : Word := w.extractLsb' 0 32

/-- `C[15:0]`, the value of FW16 (spec/30_encoding.md R37). -/
def cLowField (w : CmdWord) : Half := w.extractLsb' 0 16

/-- `A[0]`, the chunk_pending bit of TICK (spec/30_encoding.md R37). -/
def a0Field (w : CmdWord) : Bool := w.getLsbD 48

/-- Why a command word is no command. -/
inductive DecodeError where
  /-- The opcode is not in the map of spec/30_encoding.md R36: the block answers ILLEGAL (R38(a)). -/
  | undefinedOpcode (opc : Byte)
deriving DecidableEq, Repr

/-- The command a word stands for: selected by `OPC` alone (spec/30_encoding.md R36, R38(b)). -/
def decode (w : CmdWord) : Except DecodeError Instr :=
  match (opcField w).toNat with
  | 0x01 => .ok .fbegin
  | 0x02 => .ok (.fbyte (aField w))
  | 0x03 => .ok (.fw16 (aField w) (bField w) (cLowField w))
  | 0x04 => .ok (.fw32 (aField w) (bField w) (cField w))
  | 0x05 => .ok .fend
  | 0x10 => .ok (.pack (aField w) (cField w))
  | 0x11 => .ok (.unpack (aField w) (cField w))
  | 0x12 => .ok (.dsplit (aField w) (cField w))
  | 0x20 => .ok (.tick (a0Field w))
  | 0x21 => .ok (.sethm (cField w))
  | 0x22 => .ok (.poll (aField w))
  | 0x30 => .ok (.cfgwr (aField w) (cField w))
  | 0x31 => .ok (.cfgrd (aField w))
  | 0x32 => .ok .init
  | _ => .error (.undefinedOpcode (opcField w))

/-- `(OPC << 56) or (A << 48) or (B << 32) or C` (spec/30_encoding.md R41). -/
def assemble (opc a : Byte) (b : Half) (c : Word) : CmdWord := opc ++ a ++ b ++ c

/-- The word of a command, unused fields zero (spec/30_encoding.md R36, R41). -/
def encode : Instr → CmdWord
  | .fbegin => assemble 0x01 0 0 0
  | .fbyte b => assemble 0x02 b 0 0
  | .fw16 hdr id value => assemble 0x03 hdr id (value.setWidth 32)
  | .fw32 hdr id value => assemble 0x04 hdr id value
  | .fend => assemble 0x05 0 0 0
  | .pack i value => assemble 0x10 i 0 value
  | .unpack i word => assemble 0x11 i 0 word
  | .dsplit k value => assemble 0x12 k 0 value
  | .tick chunkPending => assemble 0x20 ((BitVec.ofBool chunkPending).setWidth 8) 0 0
  | .sethm mask => assemble 0x21 0 0 mask
  | .poll b => assemble 0x22 b 0 0
  | .cfgwr reg value => assemble 0x30 reg 0 value
  | .cfgrd reg => assemble 0x31 reg 0 0
  | .init => assemble 0x32 0 0 0

/-- The 64-bit command word whose low `nbits` bits are those of `w` and whose other bits are 0. A command is ONE
64-bit word, so bit 0 of the table's numbering is bit 0 of the command word. -/
def tableWord (nbits w : Nat) : CmdWord := BitVec.ofNat 64 (w % 2 ^ nbits)

/-- The decoder's answer for an instruction numbered as spec/opcode_table.json numbers its bits. -/
def decodeTableWord (nbits w : Nat) : Option Instr :=
  match decode (tableWord nbits w) with
  | .ok i => some i
  | .error _ => none

end Sys2Proof
end

