-- ==== Sys2Proof/Config.lean ====
section
/-! DEFINITION. What an implementation fixes, each parameter of spec/00_scope.md R7 (and spec/10_state.md R18) a field
of the configuration. The counts and widths, on which the types of State depend, are the constants `Config.nGroup` to
`Config.crcW`, each with its value; they are reducible, so that the lemmas about `Fin` and `BitVec` apply. The tables,
the CRC algorithm and the reset values are the fields of the record `Params`, whose value for this hardware is
`Machine.hw`. And the one free value, the transport's answers (spec/40_framer.md R46). -/

namespace Sys2Proof

/-- `NGROUP`: number of telemetry groups (spec/00_scope.md R7). -/
abbrev Config.nGroup : Nat := 11

/-- `HEALTH_W`: width of the health mask (spec/00_scope.md R7). -/
abbrev Config.healthW : Nat := 32

/-- `TIME_W`: width of NOW, LAST and INTERVAL (spec/00_scope.md R7). -/
abbrev Config.timeW : Nat := 32

/-- `NFIELD`: rows of the FieldSpec table (spec/00_scope.md R7). -/
abbrev Config.nField : Nat := 22

/-- `PACK_IN_W`: width of a PACK input value (spec/00_scope.md R7). -/
abbrev Config.packInW : Nat := 32

/-- `NSENS`: registered sensor-id slots (spec/00_scope.md R7). -/
abbrev Config.nSens : Nat := 4

/-- `CRC_W`: width of the CRC accumulator and trailer (spec/00_scope.md R7). -/
abbrev Config.crcW : Nat := 16

/-- The telemetry groups by name (spec/00_scope.md R7, `GROUP_INDEX`). -/
inductive GroupName where
  | gpsPosition
  | gpsStatus
  | battery
  | autopilotStatus
  | home
  | velocityYaw
  | attitudeRange
  | vario
  | vfas
  | parameters
  | baroAltitude
deriving DecidableEq, Repr

/-- One row of the FieldSpec table: `{width, offset, limit}` and the word (group) the lane belongs to
(spec/41_packer.md R58). -/
structure FieldSpec where
  word : GroupName
  width : Nat
  offset : Nat
  limit : Nat
deriving DecidableEq, Repr

/-- The CRC algorithm of width `crcW`, taken as a parameter as spec/40_framer.md R45 asks:
`(crc_init, crc_fold, crc_final)`. -/
structure CrcAlgorithm (crcW : Nat) where
  init : BitVec crcW
  fold : BitVec crcW → Byte → BitVec crcW
  final : BitVec crcW → BitVec crcW

/-- The implementation parameters that are tables, algorithms and reset values (spec/00_scope.md R7), over the counts
and widths above: with them, one config field for each row of the rule's table. Of those that are also run-time
registers the field is the reset value. -/
structure Params where
  /-- `GROUP_INDEX`: group name to number. -/
  groupIndex : GroupName → Fin Config.nGroup
  /-- `PRIO`: fixed tie-break order, highest first. -/
  prio : List (Fin Config.nGroup)
  /-- `HEALTH_GROUP`: the group a health-mask change triggers. -/
  healthGroup : Fin Config.nGroup
  /-- `FIELD[i]`. -/
  fields : Vector FieldSpec Config.nField
  /-- `crc_init`, `crc_fold`, `crc_final`. -/
  crc : CrcAlgorithm Config.crcW
  /-- `START`. -/
  startReset : Byte
  /-- `STOP`. -/
  stopReset : Byte
  /-- `ESC`. -/
  escReset : Byte
  /-- `MASK`. -/
  maskReset : Byte
  /-- `INTERVAL[g]`. -/
  intervalReset : BitVec Config.timeW
  /-- `GROUP_EN`. -/
  groupEnReset : BitVec Config.nGroup
  /-- `SENS_ID[i]`. -/
  sensIdReset : Byte
  /-- `SENS_M[i]`. -/
  sensMReset : Byte

/-- The transport's answer to the `k`-th `tx_ready()` draw, where the state's list of answers gives none: a free
value, since "the sequence of answers is an input of the model that no rule constrains" (spec/40_framer.md R46,
log 3). -/
opaque Config.txReady : Nat → Bool

end Sys2Proof
end

