-- ==== Sys2Proof/Machine/Params.lean ====
section
/-! DEFINITION. The values of the parameters for this hardware (spec/00_scope.md R7), and the types whose sizes they
are. -/

namespace Sys2Proof.Machine

/-- `GROUP_INDEX` (spec/00_scope.md R7). -/
def groupNumber : GroupName → Fin Config.nGroup
  | .gpsPosition => 0
  | .gpsStatus => 1
  | .battery => 2
  | .autopilotStatus => 3
  | .home => 4
  | .velocityYaw => 5
  | .attitudeRange => 6
  | .vario => 7
  | .vfas => 8
  | .parameters => 9
  | .baroAltitude => 10

/-- `PRIO` by name (spec/42_scheduler.md R69). -/
def prioNames : List GroupName :=
  [.autopilotStatus, .gpsPosition, .gpsStatus, .battery, .vfas, .attitudeRange, .velocityYaw, .home, .vario,
    .baroAltitude, .parameters]

/-- One of the eight shifts of `crc_fold` (spec/40_framer.md R45): reflected polynomial 0x8408. -/
def crcShift (c : BitVec 16) : BitVec 16 :=
  if c.getLsbD 0 then (c >>> 1) ^^^ 0x8408 else c >>> 1

/-- `crc_fold(c, b)` of CRC-16/X-25 (spec/40_framer.md R45). -/
def crcFold (c : BitVec 16) (b : Byte) : BitVec 16 :=
  Nat.repeat crcShift 8 (c ^^^ b.setWidth 16)

/-- `crc_final(c)` of CRC-16/X-25 (spec/40_framer.md R45). -/
def crcFinal (c : BitVec 16) : BitVec 16 := c ^^^ 0xFFFF

/-- CRC-16/X-25 (spec/40_framer.md R45). -/
def crcX25 : CrcAlgorithm Config.crcW := { init := 0xFFFF, fold := crcFold, final := crcFinal }

/-- The lanes of the GpsStatus word, rows 0 to 4 (spec/41_packer.md R58): satellite count, 3D-fix status, HDOP,
VDOP, MSL altitude. -/
def gpsStatusFields : List FieldSpec :=
  [⟨.gpsStatus, 4, 0, 0xF⟩, ⟨.gpsStatus, 2, 4, 0x3⟩, ⟨.gpsStatus, 8, 6, 0xFF⟩, ⟨.gpsStatus, 8, 14, 0xFF⟩,
    ⟨.gpsStatus, 10, 22, 0x3FF⟩]

/-- The lanes of the Battery word, rows 5 to 7 (spec/41_packer.md R58): voltage, current, consumed mAh. -/
def batteryFields : List FieldSpec :=
  [⟨.battery, 9, 0, 0x1FF⟩, ⟨.battery, 8, 9, 0xFF⟩, ⟨.battery, 15, 17, 0x7FFF⟩]

/-- The lanes of the AutopilotStatus word, rows 8 to 13 (spec/41_packer.md R58): control mode, simple-mode flags
(offset 5, spec/90_conflicts.md C2), landing complete, armed, battery failsafe, state-estimator failsafe. -/
def autopilotFields : List FieldSpec :=
  [⟨.autopilotStatus, 5, 0, 0x1F⟩, ⟨.autopilotStatus, 2, 5, 0x3⟩, ⟨.autopilotStatus, 1, 7, 0x1⟩,
    ⟨.autopilotStatus, 1, 8, 0x1⟩, ⟨.autopilotStatus, 1, 9, 0x1⟩, ⟨.autopilotStatus, 1, 10, 0x1⟩]

/-- The lanes of the Home word, rows 14 and 15 (spec/41_packer.md R58): relative altitude, bearing. -/
def homeFields : List FieldSpec := [⟨.home, 12, 12, 0xFFF⟩, ⟨.home, 7, 25, 0x7F⟩]

/-- The lanes of the VelocityYaw word, rows 16 to 18 (spec/41_packer.md R58): horizontal velocity, vertical
velocity, yaw. -/
def velocityYawFields : List FieldSpec :=
  [⟨.velocityYaw, 9, 0, 0x1FF⟩, ⟨.velocityYaw, 8, 9, 0xFF⟩, ⟨.velocityYaw, 11, 17, 0x7FF⟩]

/-- The lanes of the AttitudeRange word, rows 19 to 21 (spec/41_packer.md R58): roll, pitch, range-finder
distance. -/
def attitudeRangeFields : List FieldSpec :=
  [⟨.attitudeRange, 11, 0, 0x7FF⟩, ⟨.attitudeRange, 10, 11, 0x3FF⟩, ⟨.attitudeRange, 11, 21, 0x7FF⟩]

/-- The 22 rows of the FieldSpec table (spec/41_packer.md R58). -/
def fieldTable : Vector FieldSpec Config.nField :=
  ⟨(gpsStatusFields ++ batteryFields ++ autopilotFields ++ homeFields ++ velocityYawFields ++
    attitudeRangeFields).toArray, rfl⟩

/-- This hardware (spec/00_scope.md R7, column "value of this hardware"). -/
def hw : Params where
  groupIndex := groupNumber
  prio := prioNames.map groupNumber
  healthGroup := groupNumber .autopilotStatus
  fields := fieldTable
  crc := crcX25
  startReset := 0x7E
  stopReset := 0x7E
  escReset := 0x7D
  maskReset := 0x20
  intervalReset := 0
  groupEnReset := 0
  sensIdReset := 0
  sensMReset := 0

/-- A telemetry group, by its number. -/
abbrev Group := Fin Config.nGroup

/-- A sensor slot, by its number (spec/42_scheduler.md R75). -/
abbrev Slot := Fin Config.nSens

/-- A time or an interval, in ticks (spec/42_scheduler.md R67). -/
abbrev Time := BitVec Config.timeW

/-- A health mask (spec/10_state.md R15). -/
abbrev HealthMask := BitVec Config.healthW

/-- The CRC accumulator and trailer (spec/10_state.md R10, spec/40_framer.md R45). -/
abbrev Crc := BitVec Config.crcW

/-- An input value of PACK, two's complement (spec/41_packer.md R62). -/
abbrev PackIn := BitVec Config.packInW

end Sys2Proof.Machine
end

