-- ==== Sys2Proof/Machine/State.lean ====
section
/-! DEFINITION. The state of the block (spec/10_state.md), its observed outputs and its inputs, the reasons a step
can stop (there are none in the spec), and the state after reset. -/

namespace Sys2Proof.Machine

/-- `MODE` (spec/10_state.md R8, spec/60_exceptions.md R94). -/
inductive Mode where
  | config
  | run
deriving DecidableEq, Repr

/-- `FSTATE` (spec/10_state.md R9): IDLE, OPEN, ABANDONED. The code 3 is no state of the machine. -/
inductive FState where
  | idle
  | opened
  | abandoned
deriving DecidableEq, Repr

/-- The eight status codes a response can carry (spec/30_encoding.md R39). -/
inductive Status where
  | ok
  | none
  | chunk
  | notReady
  | abandoned
  | initFail
  | seqErr
  | illegal
deriving DecidableEq, Repr

/-- The response to one command (spec/30_encoding.md R39): its status and its 32 bits of DATA. -/
structure Response where
  status : Status
  data : Word
deriving DecidableEq, Repr

/-- What can arrive at the block between two steps: a command from the host (spec/00_scope.md R3) or the reset
event of the environment (spec/70_reset_and_hazards.md R97). -/
inductive Input where
  | command (w : CmdWord)
  | reset
deriving DecidableEq, Repr

/-- A register of the register map (spec/20_memory.md R28). -/
inductive Reg where
  | status
  | delim
  | groupEn
  | now
  | healthCur
  | healthPrev
  | interval (g : Group)
  | last (g : Group)
  | sensor (i : Slot)
deriving DecidableEq, Repr

/-- The state of the block, field by field as the summary table of spec/10_state.md lists it; then what is observed
of it (`wire`, `responses`) and what is still to arrive from outside (`inputs`, `answers`, with the counter `draws`
of `tx_ready()` draws). -/
structure State where
  /-- `MODE`, R8. -/
  mode : Mode
  /-- `FSTATE`, R9. -/
  fstate : FState
  /-- `CRC`, R10. -/
  crc : Crc
  /-- `NOW`, R11. -/
  now : Time
  /-- `LAST[0..10]`, R12. -/
  last : Vector Time Config.nGroup
  /-- `INTERVAL[0..10]`, R13. -/
  interval : Vector Time Config.nGroup
  /-- `GROUP_EN`, R14. -/
  groupEn : BitVec Config.nGroup
  /-- `HEALTH_CUR`, R15. -/
  healthCur : HealthMask
  /-- `HEALTH_PREV`, R15. -/
  healthPrev : HealthMask
  /-- `SENS_ID[0..3]`, R16. -/
  sensId : Vector Byte Config.nSens
  /-- `SENS_M[0..3]`, R16. -/
  sensM : Vector Byte Config.nSens
  /-- `RR[0..3]`, R16. -/
  rr : Vector Byte Config.nSens
  /-- `DELIM`, R17: START 7:0, STOP 15:8, ESC 23:16, MASK 31:24. -/
  delim : Word
  /-- `WIRE`, R19: the bytes the transport has accepted, oldest first. -/
  wire : List Byte
  /-- The responses given so far, oldest first (log 5). -/
  responses : List Response
  /-- The commands and resets still to arrive, next first (log 1). -/
  inputs : List Input
  /-- The transport's next answers, where they are given (log 3). -/
  answers : List Bool
  /-- How many `tx_ready()` draws have been made (log 3). -/
  draws : Nat
deriving DecidableEq, Repr

/-- The faults of the machine: none. "No command ever traps, blocks, aborts the block, saves state or transfers
control" (spec/60_exceptions.md R84). An empty type is safe: nothing can be proved of a stop that cannot happen. -/
inductive Fault where
deriving DecidableEq, Repr

/-- The refusals of the model. -/
inductive Refusal where
  /-- Raised by `exec` for an instruction without a meaning: safe, nothing is claimed of it. No arm raises it. -/
  | notModelled (mnemonic : String)
deriving DecidableEq, Repr

/-- The outcome of a command or a step. -/
abbrev Result := Host.Outcome State Fault Refusal

/-- The machine right after reset (spec/70_reset_and_hazards.md R98); nothing has been sent or answered yet and no
input is lined up (logs 1, 3, 4, 5). -/
def State.reset : State where
  mode := .config
  fstate := .idle
  crc := 0x0000
  now := 0
  last := Vector.replicate Config.nGroup 0
  interval := Vector.replicate Config.nGroup hw.intervalReset
  groupEn := hw.groupEnReset
  healthCur := 0
  healthPrev := 0
  sensId := Vector.replicate Config.nSens hw.sensIdReset
  sensM := Vector.replicate Config.nSens hw.sensMReset
  rr := Vector.replicate Config.nSens 0
  delim := hw.maskReset ++ hw.escReset ++ hw.stopReset ++ hw.startReset
  wire := []
  responses := []
  inputs := []
  answers := []
  draws := 0

end Sys2Proof.Machine
end

