-- ==== Sys2Proof/Machine/Operands.lean ====
section
/-! DEFINITION. Operand forms (spec/30_encoding.md R37), register indices (spec/20_memory.md R28), the bytes of
multi-byte quantities (R29) and the arithmetic primitives of spec/00_scope.md section 5. -/

namespace Sys2Proof.Machine

/-- `as_s32(v)`: two's complement (spec/00_scope.md section 5). -/
def asS32 (v : Word) : Int := v.toInt

/-- The operand C of PACK as an input value: `as_s32(C)`, of width `PACK_IN_W` (spec/41_packer.md R62). -/
def packInput (c : Word) : Int :=
  let v : PackIn := c.setWidth Config.packInW
  v.toInt

/-- `clamp(v, lo, hi)` on mathematical integers (spec/00_scope.md section 5). -/
def clamp (v lo hi : Int) : Int := if v < lo then lo else if v > hi then hi else v

/-- `quot(a, b)`: integer division truncating toward zero (spec/00_scope.md section 5). -/
def quot (a b : Int) : Int := a.tdiv b

/-- `rem(a, b)`: its remainder, with the sign of `a` (spec/00_scope.md section 5). -/
def rem (a b : Int) : Int := a.tmod b

/-- The low byte `h[7:0]` of a 16-bit value. -/
def lowByte (h : Half) : Byte := h.extractLsb' 0 8

/-- The high byte `h[15:8]` of a 16-bit value. -/
def highByte (h : Half) : Byte := h.extractLsb' 8 8

/-- The bytes of a 16-bit quantity on the wire, low byte first (spec/20_memory.md R29). -/
def bytes16 (h : Half) : List Byte := [lowByte h, highByte h]

/-- The bytes of a 32-bit quantity on the wire, least significant first (spec/20_memory.md R29). -/
def bytes32 (w : Word) : List Byte :=
  [w.extractLsb' 0 8, w.extractLsb' 8 8, w.extractLsb' 16 8, w.extractLsb' 24 8]

/-- The trailer bytes of a CRC of width `CRC_W`, low byte first (spec/20_memory.md R29, spec/40_framer.md R54). -/
def crcBytes (c : Crc) : List Byte := (List.range (Config.crcW / 8)).map fun k => c.extractLsb' (8 * k) 8

/-- The record of FW16 (spec/30_encoding.md R43): header, id low, id high, value bytes. -/
def record16 (hdr : Byte) (id value : Half) : List Byte := hdr :: (bytes16 id ++ bytes16 value)

/-- The record of FW32 (spec/30_encoding.md R43). -/
def record32 (hdr : Byte) (id : Half) (value : Word) : List Byte := hdr :: (bytes16 id ++ bytes32 value)

/-- The register an index names, if any (spec/20_memory.md R28). -/
def regOfIndex (a : Byte) : Option Reg :=
  let n := a.toNat
  if n = 0x00 then some .status
  else if n = 0x01 then some .delim
  else if n = 0x02 then some .groupEn
  else if n = 0x03 then some .now
  else if n = 0x04 then some .healthCur
  else if n = 0x05 then some .healthPrev
  else if h : 0x10 ≤ n ∧ n < 0x10 + Config.nGroup then some (.interval ⟨n - 0x10, by omega⟩)
  else if h : 0x20 ≤ n ∧ n < 0x20 + Config.nGroup then some (.last ⟨n - 0x20, by omega⟩)
  else if h : 0x30 ≤ n ∧ n < 0x30 + Config.nSens then some (.sensor ⟨n - 0x30, by omega⟩)
  else none

/-- `START`, DELIM bits 7:0 (spec/10_state.md R17). -/
def startByte (d : Word) : Byte := d.extractLsb' 0 8

/-- `STOP`, DELIM bits 15:8 (spec/10_state.md R17). -/
def stopByte (d : Word) : Byte := d.extractLsb' 8 8

/-- `ESC`, DELIM bits 23:16 (spec/10_state.md R17). -/
def escByte (d : Word) : Byte := d.extractLsb' 16 8

/-- `MASK`, DELIM bits 31:24 (spec/10_state.md R17). -/
def maskByte (d : Word) : Byte := d.extractLsb' 24 8

/-- Row `i` of the FieldSpec table; none for an index of no row (spec/41_packer.md R58). -/
def fieldRow (i : Byte) : Option FieldSpec := hw.fields[i.toNat]?

end Sys2Proof.Machine
end

