-- ==== Sys2Proof/Machine/Flags.lean ====
section
/-! DEFINITION. The block has no condition codes (spec/10_state.md R22). This file holds what takes their place: the
codes of MODE, FSTATE and the response status, the STATUS view, and the conditions computed from the state when a
command needs them. -/

namespace Sys2Proof.Machine

/-- The code of MODE (spec/10_state.md R8). -/
def modeCode : Mode → BitVec 1
  | .config => 0
  | .run => 1

/-- The code of FSTATE (spec/10_state.md R9). -/
def fstateCode : FState → BitVec 2
  | .idle => 0
  | .opened => 1
  | .abandoned => 2

/-- The 8-bit status code (spec/30_encoding.md R39). -/
def statusCode : Status → Byte
  | .ok => 0x00
  | .none => 0x01
  | .chunk => 0x02
  | .notReady => 0x03
  | .abandoned => 0x04
  | .initFail => 0x0D
  | .seqErr => 0x0E
  | .illegal => 0x0F

/-- The 40-bit response word: STATUS_CODE in bits 39:32, DATA in bits 31:0 (spec/30_encoding.md R39). -/
def responseWord (r : Response) : BitVec 40 := statusCode r.status ++ r.data

/-- The 32-bit view of STATUS: `{0[28:0], FSTATE, MODE}` (spec/43_system.md R80). -/
def statusView (f : FState) (m : Mode) : Word := (0 : BitVec 29) ++ fstateCode f ++ modeCode m

/-- The status of a framer command: OK if the frame is still open, else ABANDONED (spec/40_framer.md R50 to R54). -/
def frameStatus : FState → Status
  | .opened => .ok
  | .idle => .abandoned
  | .abandoned => .abandoned

/-- A byte of the reserved set `{START, STOP, ESC}` (spec/40_framer.md R48). -/
def reserved (d : Word) (b : Byte) : Bool := b == startByte d || b == stopByte d || b == escByte d

/-- `delim_valid(DELIM)` (spec/43_system.md R83). -/
def delimValid (d : Word) : Bool :=
  escByte d != startByte d && escByte d != stopByte d && maskByte d != 0 &&
    !reserved d (startByte d ^^^ maskByte d) && !reserved d (stopByte d ^^^ maskByte d) &&
    !reserved d (escByte d ^^^ maskByte d)

/-- Group `g` is enabled: `GROUP_EN[g] = 1` (spec/10_state.md R14). -/
def State.enabled (s : State) (g : Group) : Bool := s.groupEn.getLsbD g.val

/-- `elapsed(g) = (t - LAST[g]) mod 2^32` (spec/42_scheduler.md R67). -/
def State.elapsed (s : State) (t : Time) (g : Group) : Time := t - s.last[g]

/-- Group `g` is eligible at time `t` (spec/42_scheduler.md R68). -/
def State.eligible (s : State) (t : Time) (g : Group) : Bool :=
  s.enabled g && decide (s.interval[g] ≤ s.elapsed t g)

/-- `over(g) = elapsed(g) - INTERVAL[g]`, of an eligible group (spec/42_scheduler.md R69). -/
def State.overrun (s : State) (t : Time) (g : Group) : Time := s.elapsed t g - s.interval[g]

/-- The health-triggered group is triggered (spec/42_scheduler.md R70). -/
def State.triggered (s : State) : Bool := s.enabled hw.healthGroup && s.healthCur != s.healthPrev

/-- Slot `i` is registered and answers to the poll byte `b` (spec/42_scheduler.md R75, R76). -/
def State.answersTo (s : State) (b : Byte) (i : Slot) : Bool := s.sensM[i] != 0 && s.sensId[i] == b

end Sys2Proof.Machine
end

