-- ==== Sys2Proof/Machine/Ops.lean ====
section
/-! DEFINITION. The operations the commands share: answering, raising a status in place of a trap, the mode check,
the transport, the emission primitives of the framer, the scheduler's choice, register access and reset. -/

namespace Sys2Proof.Machine

/-- `respond(status, data)`: the command ends with that response (spec/00_scope.md section 5). -/
def State.respond (s : State) (st : Status) (data : Word) : State :=
  { s with responses := s.responses ++ [⟨st, data⟩] }

/-- `raise X(info)`: respond `{X, info}` and change nothing else. It is what the block has in place of taking an
exception; there is nothing to return from (spec/60_exceptions.md R84, R93). -/
def State.raise (s : State) (st : Status) (info : Word) : State := s.respond st info

/-- A command that is legal in RUN mode only (spec/60_exceptions.md R94). -/
def inRun (s : State) (body : State → State) : Result :=
  match s.mode with
  | .run => .next (body s)
  | .config => .next (s.raise .illegal 0)

/-- A command that is legal in CONFIG mode only (spec/60_exceptions.md R94). -/
def inConfig (s : State) (body : State → State) : Result :=
  match s.mode with
  | .config => .next (body s)
  | .run => .next (s.raise .illegal 0)

/-- The next answer of the transport (spec/40_framer.md R46): the first one given, else the free value. -/
def State.txReady (s : State) : Bool :=
  match s.answers with
  | b :: _ => b
  | [] => Config.txReady s.draws

/-- The state after one `tx_ready()` draw: "a fresh draw each call" (spec/00_scope.md section 5). -/
def State.draw (s : State) : State := { s with answers := s.answers.tail, draws := s.draws + 1 }

/-- `emit(b)` (spec/40_framer.md R47); it returned true exactly if FSTATE is still OPEN. -/
def State.emit (s : State) (b : Byte) : State :=
  if s.txReady then { s.draw with wire := s.wire ++ [b] } else { s.draw with fstate := .abandoned }

/-- `emit(b)` where the frame is still open, nothing otherwise (spec/40_framer.md R48, R54). -/
def State.emitIfOpen (s : State) (b : Byte) : State :=
  match s.fstate with
  | .opened => s.emit b
  | .idle => s
  | .abandoned => s

/-- `emit_stuffed(b)` (spec/40_framer.md R48): the second byte of an escape pair is attempted only if the first was
accepted. -/
def State.emitStuffed (s : State) (b : Byte) : State :=
  if reserved s.delim b then (s.emitIfOpen (escByte s.delim)).emitIfOpen (b ^^^ maskByte s.delim)
  else s.emitIfOpen b

/-- `send_byte(b)` (spec/40_framer.md R49): the original byte is folded, also when the transport refused it. -/
def State.sendByte (s : State) (b : Byte) : State :=
  match s.fstate with
  | .opened => { s.emitStuffed b with crc := hw.crc.fold s.crc b }
  | .idle => s
  | .abandoned => s

/-- `send_byte` of each byte in turn (spec/40_framer.md R52, R53). -/
def State.sendBytes (s : State) (bs : List Byte) : State := bs.foldl State.sendByte s

/-- The number of bytes appended to WIRE between two states, as a u32 (spec/30_encoding.md R40). -/
def sentCount (before after : State) : Word := BitVec.ofNat 32 (after.wire.length - before.wire.length)

/-- Run the emissions of a framer command and answer OK or ABANDONED with the count of bytes that got out
(spec/40_framer.md R50 to R53). -/
def State.framed (s : State) (body : State → State) : State :=
  (body s).respond (frameStatus (body s).fstate) (sentCount s (body s))

/-- A framer data command: SEQERR with no frame open, suppressed in an abandoned frame (spec/40_framer.md R51 to R53,
spec/60_exceptions.md R87, R88). -/
def State.inFrame (s : State) (body : State → State) : State :=
  match s.fstate with
  | .idle => s.raise .seqErr 0
  | .abandoned => s.respond .abandoned 0
  | .opened => s.framed body

/-- The largest overrun among a list of groups (spec/42_scheduler.md R69). -/
def State.maxOverrun (s : State) (t : Time) (gs : List Group) : Nat :=
  gs.foldl (fun m g => max m (s.overrun t g).toNat) 0

/-- The set `E` of eligible groups, in PRIO order (spec/42_scheduler.md R72). -/
def State.eligibleGroups (s : State) (t : Time) : List Group := hw.prio.filter (s.eligible t)

/-- `select(E)`: the first group in PRIO order with the largest overrun; none if `E` is empty
(spec/42_scheduler.md R69). -/
def State.select (s : State) (t : Time) : Option Group :=
  (s.eligibleGroups t).find? (fun g => (s.overrun t g).toNat == s.maxOverrun t (s.eligibleGroups t))

/-- The group due at time `t`: the health trigger before any eligible group (spec/42_scheduler.md R70, R72). -/
def State.due (s : State) (t : Time) : Option Group :=
  if s.triggered then some hw.healthGroup else s.select t

/-- Group `g` is selected at time `t`: its timer is reset, and the health-triggered group consumes a pending change
(spec/42_scheduler.md R70, R72). -/
def State.markSent (s : State) (t : Time) (g : Group) : State :=
  { s with
    last := s.last.set g t
    healthPrev := if g = hw.healthGroup then s.healthCur else s.healthPrev }

/-- The first slot, in the order of their numbers, that answers to a poll byte (spec/42_scheduler.md R76). -/
def State.pollSlot (s : State) (b : Byte) : Option Slot := (List.finRange Config.nSens).find? (s.answersTo b)

/-- Advance the round-robin counter of slot `i`: `(RR[i] + 1) mod SENS_M[i]` (spec/42_scheduler.md R76, log 7). -/
def State.advance (s : State) (i : Slot) : State :=
  { s with rr := s.rr.set i ((s.rr[i] + 1) % s.sensM[i]) }

/-- `MemRead`: the 32-bit view of a register (spec/20_memory.md R28, spec/43_system.md R80). -/
def State.readReg (s : State) : Reg → Word
  | .status => statusView s.fstate s.mode
  | .delim => s.delim
  | .groupEn => s.groupEn.setWidth 32
  | .now => s.now.setWidth 32
  | .healthCur => s.healthCur.setWidth 32
  | .healthPrev => s.healthPrev.setWidth 32
  | .interval g => s.interval[g].setWidth 32
  | .last g => s.last[g].setWidth 32
  | .sensor i => (0 : Byte) ++ s.rr[i] ++ s.sensM[i] ++ s.sensId[i]

/-- `MemWrite`: replace the writable bits of a RW register; none for a RO register (spec/20_memory.md R26, R28,
spec/43_system.md R79). -/
def State.writeReg (s : State) (v : Word) : Reg → Option State
  | .status => none
  | .delim => some { s with delim := v }
  | .groupEn => some { s with groupEn := v.extractLsb' 0 Config.nGroup }
  | .now => none
  | .healthCur => none
  | .healthPrev => none
  | .interval g => some { s with interval := s.interval.set g (v.setWidth Config.timeW) }
  | .last _ => none
  | .sensor i =>
    some { s with sensId := s.sensId.set i (v.extractLsb' 0 8), sensM := s.sensM.set i (v.extractLsb' 8 8) }

/-- The reset event: every element of the block's state takes its reset value; what was sent and answered stays
(spec/70_reset_and_hazards.md R97, R98, log 4). -/
def State.afterReset (s : State) : State :=
  { State.reset with
    wire := s.wire, responses := s.responses, inputs := s.inputs, answers := s.answers, draws := s.draws }

/-- A word with an undefined opcode: ILLEGAL, no other effect (spec/30_encoding.md R38(a), spec/60_exceptions.md
R86). -/
def State.undefinedOpcode (s : State) : State := s.raise .illegal 0

end Sys2Proof.Machine
end

