-- ==== Sys2Proof/Machine/Framer.lean ====
section
/-! DEFINITION. The framer commands (spec/40_framer.md R50 to R54). -/

namespace Sys2Proof.Machine

/-- The emission of FBEGIN: the accumulator and FSTATE start afresh, START goes out bare and is not folded
(spec/40_framer.md R50). -/
def State.beginFrame (s : State) : State :=
  State.emit { s with crc := hw.crc.init, fstate := .opened } (startByte s.delim)

/-- `FBEGIN` (spec/40_framer.md R50). -/
def execFbegin (s : State) : Result := inRun s fun s => s.framed State.beginFrame

/-- `FBYTE b` (spec/40_framer.md R51). -/
def execFbyte (b : Byte) (s : State) : Result :=
  inRun s fun s => s.inFrame fun s => s.sendByte b

/-- `FW16 hdr, id, value` (spec/40_framer.md R52). -/
def execFw16 (hdr : Byte) (id value : Half) (s : State) : Result :=
  inRun s fun s => s.inFrame fun s => s.sendBytes (record16 hdr id value)

/-- `FW32 hdr, id, value` (spec/40_framer.md R53). -/
def execFw32 (hdr : Byte) (id : Half) (value : Word) (s : State) : Result :=
  inRun s fun s => s.inFrame fun s => s.sendBytes (record32 hdr id value)

/-- The emissions of FEND in an open frame: the trailer, low byte first, stuffed and not folded, then STOP bare
(spec/40_framer.md R54). -/
def State.sendTrailer (s : State) : State :=
  ((crcBytes (hw.crc.final s.crc)).foldl State.emitStuffed s).emitIfOpen (stopByte s.delim)

/-- The end of a frame that is not idle: the status and count are those of the emissions, FSTATE becomes IDLE
(spec/40_framer.md R54). -/
def State.endFrame (s : State) : State :=
  { s.framed State.sendTrailer with fstate := .idle }

/-- What FEND does in each frame state; in an abandoned frame nothing is emitted and nothing drawn
(spec/40_framer.md R54). -/
def State.closeFrame (s : State) : State :=
  match s.fstate with
  | .idle => s.raise .seqErr 0
  | .opened => s.endFrame
  | .abandoned => s.endFrame

/-- `FEND` (spec/40_framer.md R54). -/
def execFend (s : State) : Result := inRun s State.closeFrame

end Sys2Proof.Machine
end

