-- ==== Sys2Proof/Machine/Packer.lean ====
section
/-! DEFINITION. The packer: two pure functions and three commands (spec/41_packer.md R60 to R65). They read and write
no state, not even MODE (R66). -/

namespace Sys2Proof.Machine

/-- `pack(v, i)` (spec/41_packer.md R60): saturate to `[0, limit]`, shift into the lane. -/
def packField (f : FieldSpec) (v : Int) : Word := BitVec.ofNat 32 (clamp v 0 f.limit).toNat <<< f.offset

/-- `unpack(w, i)` (spec/41_packer.md R61). -/
def unpackField (f : FieldSpec) (w : Word) : Word := (w >>> f.offset) &&& BitVec.ofNat 32 (2 ^ f.width - 1)

/-- `PACK i, value` (spec/41_packer.md R62). -/
def execPack (i : Byte) (value : Word) (s : State) : Result :=
  match fieldRow i with
  | none => .next (s.raise .illegal 0)
  | some f => .next (s.respond .ok (packField f (packInput value)))

/-- `UNPACK i, word` (spec/41_packer.md R63). -/
def execUnpack (i : Byte) (word : Word) (s : State) : Result :=
  match fieldRow i with
  | none => .next (s.raise .illegal 0)
  | some f => .next (s.respond .ok (unpackField f word))

/-- The two parts of DSPLIT: before-point in bits 31:16, saturated to s16, after-point in bits 15:0
(spec/41_packer.md R65). -/
def splitDecimal (k : Nat) (v : Int) : Word :=
  BitVec.ofInt 16 (clamp (quot v (10 ^ k)) (-32768) 32767) ++ BitVec.ofInt 16 (rem v (10 ^ k))

/-- `DSPLIT k, value` (spec/41_packer.md R65). -/
def execDsplit (k : Byte) (value : Word) (s : State) : Result :=
  if k.toNat > 4 then .next (s.raise .illegal 0)
  else .next (s.respond .ok (splitDecimal k.toNat (asS32 value)))

end Sys2Proof.Machine
end

