-- ==== Sys2Proof/Machine/Scheduler.lean ====
section
/-! DEFINITION. The scheduler commands (spec/42_scheduler.md R72, R73, R76). -/

namespace Sys2Proof.Machine

/-- What TICK decides once the transport is ready and no chunk is pending (spec/42_scheduler.md R72). -/
def State.decideGroup (s : State) (t : Time) : State :=
  match s.due t with
  | none => s.respond .none 0
  | some g => (s.markSent t g).respond .ok (BitVec.ofNat 32 g.val)

/-- One tick passes: NOW advances and the transport is sampled once, in every outcome (spec/42_scheduler.md R71,
R72). -/
def State.passTick (s : State) : State := State.draw { s with now := s.now + 1 }

/-- The outcomes of TICK in the order of spec/60_exceptions.md R92: transport, chunk, then the choice of a group. -/
def State.tickOutcome (s : State) (chunkPending : Bool) : State :=
  if !s.txReady then s.passTick.respond .notReady 0
  else if chunkPending then s.passTick.respond .chunk 0
  else s.passTick.decideGroup s.now

/-- `TICK chunk_pending` (spec/42_scheduler.md R72). -/
def execTick (chunkPending : Bool) (s : State) : Result := inRun s fun s => s.tickOutcome chunkPending

/-- `SETHM mask` (spec/42_scheduler.md R73). -/
def execSethm (mask : Word) (s : State) : Result :=
  inRun s fun s => State.respond { s with healthCur := mask.setWidth Config.healthW } .ok 0

/-- The DATA of a matching POLL: `{zext_16(0), i as u8, v}` (spec/42_scheduler.md R76). -/
def pollData (i : Slot) (v : Byte) : Word := (0 : Half) ++ BitVec.ofNat 8 i.val ++ v

/-- The reply to a poll byte (spec/42_scheduler.md R76). -/
def State.answerPoll (s : State) (b : Byte) : State :=
  match s.pollSlot b with
  | none => s.respond .none 0
  | some i => (s.advance i).respond .ok (pollData i s.rr[i])

/-- `POLL b` (spec/42_scheduler.md R76). -/
def execPoll (b : Byte) (s : State) : Result := inRun s fun s => s.answerPoll b

end Sys2Proof.Machine
end

