-- ==== Sys2Proof/Machine/System.lean ====
section
/-! DEFINITION. The system commands (spec/43_system.md R79 to R81). -/

namespace Sys2Proof.Machine

/-- The write of CFGWR; ILLEGAL for an unimplemented index or a RO register (spec/43_system.md R79). -/
def State.configure (s : State) (reg : Byte) (value : Word) : State :=
  match (regOfIndex reg).bind (s.writeReg value) with
  | none => s.raise .illegal 0
  | some s' => s'.respond .ok 0

/-- `CFGWR reg, value` (spec/43_system.md R79): the mode is tested before the index (spec/60_exceptions.md R92). -/
def execCfgwr (reg : Byte) (value : Word) (s : State) : Result := inConfig s fun s => s.configure reg value

/-- `CFGRD reg` (spec/43_system.md R80): legal in both modes. -/
def execCfgrd (reg : Byte) (s : State) : Result :=
  match regOfIndex reg with
  | none => .next (s.raise .illegal 0)
  | some r => .next (s.respond .ok (s.readReg r))

/-- Enter RUN mode if DELIM is usable, else fail fast (spec/43_system.md R81). -/
def State.enterRun (s : State) : State :=
  if delimValid s.delim then State.respond { s with mode := .run } .ok 0 else s.raise .initFail 0

/-- `INIT` (spec/43_system.md R81). -/
def execInit (s : State) : Result := inConfig s State.enterRun

end Sys2Proof.Machine
end

