-- ==== Sys2Proof/Machine/Dispatch.lean ====
section
/-! DEFINITION. The meaning of each command, one arm for each constructor of Instr. -/

namespace Sys2Proof.Machine

def exec (i : Instr) (s : State) : Host.Outcome State Fault Refusal :=
  match i with
  | .fbegin => Sys2Proof.Machine.execFbegin s
  | .fbyte b => Sys2Proof.Machine.execFbyte b s
  | .fw16 hdr id value => Sys2Proof.Machine.execFw16 hdr id value s
  | .fw32 hdr id value => Sys2Proof.Machine.execFw32 hdr id value s
  | .fend => Sys2Proof.Machine.execFend s
  | .pack row value => Sys2Proof.Machine.execPack row value s
  | .unpack row word => Sys2Proof.Machine.execUnpack row word s
  | .dsplit k value => Sys2Proof.Machine.execDsplit k value s
  | .tick chunkPending => Sys2Proof.Machine.execTick chunkPending s
  | .sethm mask => Sys2Proof.Machine.execSethm mask s
  | .poll b => Sys2Proof.Machine.execPoll b s
  | .cfgwr reg value => Sys2Proof.Machine.execCfgwr reg value s
  | .cfgrd reg => Sys2Proof.Machine.execCfgrd reg s
  | .init => Sys2Proof.Machine.execInit s

end Sys2Proof.Machine
end

