-- ==== Sys2Proof/Machine/Step.lean ====
section
/-! DEFINITION. One step of the machine: the block takes the next input and acts on it to completion
(spec/00_scope.md R3, R4, spec/20_memory.md R31). -/

namespace Sys2Proof.Machine

/-- One step. A command word is decoded and executed; a word with an undefined opcode answers ILLEGAL
(spec/30_encoding.md R38); a reset event resets the block (spec/70_reset_and_hazards.md R97); with no input the block
is idle (spec/60_exceptions.md R96, log 2). -/
def step (s : State) : Host.Outcome State Fault Refusal :=
  match s.inputs with
  | [] => .next s
  | .reset :: rest => .next (State.afterReset { s with inputs := rest })
  | .command w :: rest =>
    match decode w with
    | .ok i => exec i { s with inputs := rest }
    | .error _ => .next (State.undefinedOpcode { s with inputs := rest })

/-- `s` with the command word of `nbits` table bits `w` as the next input: the host issues that command next
(log 1). -/
def State.withFetchWord (s : State) (nbits w : Nat) : State :=
  { s with inputs := .command (tableWord nbits w) :: s.inputs }

end Sys2Proof.Machine
end

