-- ==== Sys2Proof/WellFormed.lean ====
section
/-! DEFINITION. Which operands of a defined opcode are legal (spec/30_encoding.md R38(c), with the register map
of spec/20_memory.md R28). An ill-formed command is still a command: it runs and answers ILLEGAL. -/

namespace Sys2Proof

/-- An index with a row in the register map (spec/20_memory.md R28). -/
def implementedIndex (a : Byte) : Bool :=
  let n := a.toNat
  n ≤ 0x05 || (0x10 ≤ n && n < 0x10 + Config.nGroup) || (0x20 ≤ n && n < 0x20 + Config.nGroup) ||
    (0x30 ≤ n && n < 0x30 + Config.nSens)

/-- An index whose row in the register map says RW (spec/20_memory.md R28). -/
def writableIndex (a : Byte) : Bool :=
  let n := a.toNat
  n == 0x01 || n == 0x02 || (0x10 ≤ n && n < 0x10 + Config.nGroup) || (0x30 ≤ n && n < 0x30 + Config.nSens)

/-- The operands are none of the illegal ones of spec/30_encoding.md R38(c). -/
def Instr.wellFormed : Instr → Bool
  | .fbegin => true
  | .fbyte _ => true
  | .fw16 _ _ _ => true
  | .fw32 _ _ _ => true
  | .fend => true
  | .pack i _ => i.toNat < Config.nField
  | .unpack i _ => i.toNat < Config.nField
  | .dsplit k _ => k.toNat ≤ 4
  | .tick _ => true
  | .sethm _ => true
  | .poll _ => true
  | .cfgwr reg _ => writableIndex reg
  | .cfgrd reg => implementedIndex reg
  | .init => true

end Sys2Proof
end

