-- ==== Sys2Proof/Safety.lean ====
section
/-! DEFINITION. The terms claims are stated in: legality of a command, the transport's coming answers, the bytes of a
frame and its reference inverse, eligibility and priority as the spec's prose puts them, runs of commands, and the
invariants of the block. None of it is used by the machine. -/

namespace Sys2Proof.Machine

/-! ### Commands -/

/-- The legality table of spec/60_exceptions.md R94. -/
def legalInMode : Instr → Mode → Bool
  | .fbegin, m => m == .run
  | .fbyte _, m => m == .run
  | .fw16 _ _ _, m => m == .run
  | .fw32 _ _ _, m => m == .run
  | .fend, m => m == .run
  | .tick _, m => m == .run
  | .sethm _, m => m == .run
  | .poll _, m => m == .run
  | .pack _ _, _ => true
  | .unpack _ _, _ => true
  | .dsplit _ _, _ => true
  | .cfgrd _, _ => true
  | .cfgwr _ _, m => m == .config
  | .init, m => m == .config

/-- A framer command that carries data: the bytes it gives to `send_byte`, in order (spec/40_framer.md R51 to R53,
spec/30_encoding.md R43). -/
def dataBytes : Instr → Option (List Byte)
  | .fbyte b => some [b]
  | .fw16 hdr id v =>
    some [hdr, id.extractLsb' 0 8, id.extractLsb' 8 8, v.extractLsb' 0 8, v.extractLsb' 8 8]
  | .fw32 hdr id v =>
    some [hdr, id.extractLsb' 0 8, id.extractLsb' 8 8,
      v.extractLsb' 0 8, v.extractLsb' 8 8, v.extractLsb' 16 8, v.extractLsb' 24 8]
  | .fbegin | .fend | .pack _ _ | .unpack _ _ | .dsplit _ _ | .tick _ | .sethm _ | .poll _ | .cfgwr _ _ | .cfgrd _
  | .init => none

/-- One of the five framer commands (spec/20_memory.md R25(b)). -/
def isFramer (i : Instr) : Prop := i = .fbegin ∨ i = .fend ∨ ∃ bs, dataBytes i = some bs

/-- One of the three packer commands (spec/41_packer.md R66). -/
def isPacker : Instr → Bool
  | .pack _ _ => true
  | .unpack _ _ => true
  | .dsplit _ _ => true
  | .fbegin | .fbyte _ | .fw16 _ _ _ | .fw32 _ _ _ | .fend | .tick _ | .sethm _ | .poll _ | .cfgwr _ _ | .cfgrd _
  | .init => false

/-- The bits of a command word that a command uses: OPC, and the operand fields of spec/30_encoding.md R36, R37. -/
def usedBits : Instr → CmdWord
  | .fbegin => 0xFF00000000000000
  | .fbyte _ => 0xFFFF000000000000
  | .fw16 _ _ _ => 0xFFFFFFFF0000FFFF
  | .fw32 _ _ _ => 0xFFFFFFFFFFFFFFFF
  | .fend => 0xFF00000000000000
  | .pack _ _ => 0xFFFF0000FFFFFFFF
  | .unpack _ _ => 0xFFFF0000FFFFFFFF
  | .dsplit _ _ => 0xFFFF0000FFFFFFFF
  | .tick _ => 0xFF01000000000000
  | .sethm _ => 0xFF000000FFFFFFFF
  | .poll _ => 0xFFFF000000000000
  | .cfgwr _ _ => 0xFFFF0000FFFFFFFF
  | .cfgrd _ => 0xFFFF000000000000
  | .init => 0xFF00000000000000

/-- Execute commands one after the other (spec/20_memory.md R31). -/
def execAll : List Instr → State → Result
  | [], s => .next s
  | i :: rest, s =>
    match exec i s with
    | .next t => execAll rest t
    | .fault r => .fault r
    | .refused r => .refused r

/-! ### The transport -/

/-- The answer the transport will give to the `k`-th draw from now (spec/40_framer.md R46): the given one, else the
free value. -/
def State.readyAt (s : State) (k : Nat) : Bool :=
  match s.answers[k]? with
  | some b => b
  | none => Config.txReady (s.draws + k)

/-- The transport accepts the next `n` bytes. -/
def State.acceptsNext (s : State) (n : Nat) : Prop := ∀ k < n, s.readyAt k = true

/-- The transport accepts the next `k` bytes and refuses the one after. -/
def State.refusesAt (s : State) (k : Nat) : Prop := s.acceptsNext k ∧ s.readyAt k = false

/-! ### Frames -/

/-- `stuff(x)` (spec/30_encoding.md R42): `ESC, x xor MASK` for a reserved byte, else the byte. -/
def stuff (d : Word) (b : Byte) : List Byte :=
  if b = startByte d ∨ b = stopByte d ∨ b = escByte d then [escByte d, b ^^^ maskByte d] else [b]

/-- The stuffed form of a sequence of bytes. -/
def stuffAll (d : Word) (bs : List Byte) : List Byte := bs.flatMap (stuff d)

/-- The CRC accumulator after folding `bs` in order from `c` (spec/40_framer.md R45). -/
def foldBytes (c : Crc) (bs : List Byte) : Crc := bs.foldl hw.crc.fold c

/-- The data bytes that `send_byte` was given up to the one during which the byte number `k` of the stuffed sequence
was attempted, that one included (spec/40_framer.md R49). -/
def bytesTried (d : Word) : List Byte → Nat → List Byte
  | [], _ => []
  | b :: bs, k => if k < (stuff d b).length then [b] else b :: bytesTried d bs (k - (stuff d b).length)

/-- The two trailer bytes of an accumulator, low byte first (spec/40_framer.md R54). -/
def trailerBytes (c : Crc) : List Byte :=
  [(hw.crc.final c).extractLsb' 0 8, (hw.crc.final c).extractLsb' 8 8]

/-- What FEND emits in an open frame with accumulator `c` (spec/40_framer.md R54). -/
def endBytes (d : Word) (c : Crc) : List Byte := stuffAll d (trailerBytes c) ++ [stopByte d]

/-- A complete frame with the data bytes `bs` (spec/30_encoding.md R42). -/
def frameBytes (d : Word) (bs : List Byte) : List Byte :=
  startByte d :: (stuffAll d bs ++ endBytes d (foldBytes hw.crc.init bs))

/-- The bytes strictly between the first and the last one of a sequence. -/
def innerBytes (w : List Byte) : List Byte := w.tail.dropLast

/-- Escape safety of the inside of a frame (spec/40_framer.md R55): no START or STOP, and ESC only as the first byte
of an escape whose second byte is `x xor MASK` of a reserved `x` and is itself not reserved. -/
def escapeSafe (d : Word) : List Byte → Bool
  | [] => true
  | [x] => !reserved d x
  | x :: y :: r =>
    if x = escByte d then !reserved d y && reserved d (y ^^^ maskByte d) && escapeSafe d r
    else !reserved d x && escapeSafe d (y :: r)

/-- The unescaping of `deframe` (spec/40_framer.md R56). -/
def unescape (d : Word) : List Byte → Option (List Byte)
  | [] => some []
  | [x] => if x = escByte d then none else some [x]
  | x :: y :: r =>
    if x = escByte d then (unescape d r).map ((y ^^^ maskByte d) :: ·)
    else (unescape d (y :: r)).map (x :: ·)

/-- The trailer check of `deframe` on an unescaped sequence (spec/40_framer.md R56): the last byte is the high byte of
the trailer. -/
def checkTrailer (u : List Byte) : Option (List Byte) :=
  match u.reverse with
  | hi :: lo :: rev =>
    if hw.crc.final (foldBytes hw.crc.init rev.reverse) = hi ++ lo then some rev.reverse else none
  | [_] => none
  | [] => none

/-- `deframe(w)` (spec/40_framer.md R56), the reference inverse: not hardware. -/
def deframe (d : Word) (w : List Byte) : Option (List Byte) :=
  if 2 ≤ w.length ∧ w.head? = some (startByte d) ∧ w.getLast? = some (stopByte d) then
    (unescape d (innerBytes w)).bind checkTrailer
  else none

/-! ### The scheduler -/

/-- `elapsed(g)` at time `t`, in ticks: `(t - LAST[g]) mod 2^32` (spec/42_scheduler.md R67). -/
def State.elapsedTicks (s : State) (t : Time) (g : Group) : Nat :=
  (t.toNat + (2 ^ 32 - s.last[g].toNat)) % 2 ^ 32

/-- Group `g` is eligible at time `t` (spec/42_scheduler.md R68). -/
def State.IsEligible (s : State) (t : Time) (g : Group) : Prop :=
  s.groupEn.getLsbD g.val = true ∧ s.interval[g].toNat ≤ s.elapsedTicks t g

/-- `over(g)`, in ticks (spec/42_scheduler.md R69). -/
def State.overrunTicks (s : State) (t : Time) (g : Group) : Nat := s.elapsedTicks t g - s.interval[g].toNat

/-- The place of a group in PRIO, 0 the highest (spec/42_scheduler.md R69). -/
def prioRank (g : Group) : Nat := ([3, 0, 1, 2, 8, 6, 5, 4, 7, 10, 9] : List Group).idxOf g

/-- Group `g` is the one `select` names (spec/42_scheduler.md R69): eligible, of the largest overrun, and first in PRIO
among those of that overrun. -/
def State.IsSelected (s : State) (t : Time) (g : Group) : Prop :=
  s.IsEligible t g ∧
    ∀ h, s.IsEligible t h →
      s.overrunTicks t h < s.overrunTicks t g ∨
        (s.overrunTicks t h = s.overrunTicks t g ∧ prioRank g ≤ prioRank h)

/-- Group 3 is triggered (spec/42_scheduler.md R70). -/
def State.HealthTriggered (s : State) : Prop := s.groupEn.getLsbD 3 = true ∧ s.healthCur ≠ s.healthPrev

/-- Slot `i` is the one that answers to a poll byte: registered with that id, and no lower slot is
(spec/42_scheduler.md R75, R76). -/
def State.IsPollSlot (s : State) (b : Byte) (i : Slot) : Prop :=
  (s.sensM[i] ≠ 0 ∧ s.sensId[i] = b) ∧ ∀ j : Slot, j < i → ¬(s.sensM[j] ≠ 0 ∧ s.sensId[j] = b)

/-! ### Invariants -/

/-- The invariant of every state a run from reset reaches. -/
structure State.Inv (s : State) : Prop where
  /-- Before INIT all state but the configuration holds its reset value (spec/43_system.md R81). -/
  config_fresh : s.mode = .config →
    s.fstate = .idle ∧ s.crc = 0x0000 ∧ s.now = 0 ∧ s.last = Vector.replicate 11 0 ∧ s.healthCur = 0 ∧
      s.healthPrev = 0 ∧ s.rr = Vector.replicate 4 0
  /-- RUN is entered with a valid DELIM only (spec/43_system.md R81, R83). -/
  run_delim : s.mode = .run → delimValid s.delim = true
  /-- `RR[i]` is in the range 0 to `max(SENS_M[i], 1) - 1` (spec/10_state.md R16). -/
  rr_range : ∀ i : Slot, s.rr[i].toNat < max s.sensM[i].toNat 1

/-- While a frame is open, WIRE ends with START and the stuffed data bytes sent since FBEGIN, and CRC is the fold of
exactly those bytes (spec/40_framer.md R49, R50). -/
def State.FrameOnWire (s : State) : Prop :=
  s.fstate = .opened →
    ∃ before data, s.wire = before ++ startByte s.delim :: stuffAll s.delim data ∧ s.crc = foldBytes 0xFFFF data

/-- A disabled group was never selected: its timer is untouched, and no health change was consumed
(spec/10_state.md R14, spec/70_reset_and_hazards.md R105). -/
def State.DisabledUntouched (s : State) : Prop :=
  (∀ g : Group, s.groupEn.getLsbD g.val = false → s.last[g] = 0) ∧
    (s.groupEn.getLsbD 3 = false → s.healthPrev = 0)

end Sys2Proof.Machine
end

