-- ==== Sys2Proof/Certificates/Slice0/Obligations.lean ====
section
/-! DEFINITION. The statements for the provers. Every equation of the form `exec i s = .next (… s with …)` is also the
command's frame: every register, WIRE, the inputs and the transport's answers that it does not name are unchanged.
The lists `inputs`, `responses`, `answers` and the counter `draws` are the model's own way to hold what arrives, what was
answered and what the transport will answer (logs 1, 3, 5). -/

section

open Sys2Proof Sys2Proof.Machine

/-! ### Encoding (spec/30_encoding.md) -/

/-- Every command, with every operand, is what its encoded word decodes to (R35 to R37, R41). -/
def Obligations.DecodeEncodeRoundTrip : Prop :=
  ∀ i : Instr, decode (encode i) = .ok i

/-- A decoded word agrees with the encoding of its command on every bit the command uses, and only there
(R37, R38(b)). -/
def Obligations.EncodeDecodeKeepsUsedBits : Prop :=
  ∀ (w : CmdWord) (i : Instr), decode w = .ok i → encode i = w &&& usedBits i

/-- The words the decoder rejects are those with one of the 242 illegal opcodes of R38(a). -/
def Obligations.DecodeRejectsUndefinedOpcodes : Prop :=
  ∀ w : CmdWord,
    (decode w = .error (.undefinedOpcode (w.extractLsb' 56 8)) ↔
      w.toNat / 2 ^ 56 = 0 ∨ (0x06 ≤ w.toNat / 2 ^ 56 ∧ w.toNat / 2 ^ 56 ≤ 0x0F) ∨
        (0x13 ≤ w.toNat / 2 ^ 56 ∧ w.toNat / 2 ^ 56 ≤ 0x1F) ∨
        (0x23 ≤ w.toNat / 2 ^ 56 ∧ w.toNat / 2 ^ 56 ≤ 0x2F) ∨ 0x33 ≤ w.toNat / 2 ^ 56) ∧
    ∀ e, decode w = .error e → e = .undefinedOpcode (w.extractLsb' 56 8)

/-- The words spec/30_encoding.md R41 and spec/95_test_vectors.md write out decode to the commands they stand for. -/
def Obligations.SpecExampleWordsDecode : Prop :=
  decode 0x0100000000000000 = .ok .fbegin ∧
  decode 0x027E000000000000 = .ok (.fbyte 0x7E) ∧
  decode 0x0310021000000001 = .ok (.fw16 0x10 0x0210 1) ∧
  decode 0x04105006001FF9C2 = .ok (.fw32 0x10 0x5006 0x001FF9C2) ∧
  decode 0x10150000FFFFFFF9 = .ok (.pack 21 (BitVec.ofInt 32 (-7))) ∧
  decode 0x2001000000000000 = .ok (.tick true) ∧
  decode 0x20FE000000000000 = .ok (.tick false) ∧
  decode 0x30130000000003E8 = .ok (.cfgwr 0x13 1000)

/-! ### Steps, modes and responses -/

/-- A step runs the decoded command: when the next input is a word that decodes to `i`, the step is `exec i` on the
state without that input (spec/20_memory.md R31, spec/30_encoding.md R38(b)). -/
def Obligations.StepRunsDecodedCommand : Prop :=
  ∀ (s : State) (w : CmdWord) (rest : List Input) (i : Instr),
    s.inputs = .command w :: rest → decode w = .ok i → step s = exec i { s with inputs := rest }

/-- A word with an undefined opcode answers ILLEGAL, DATA 0, and changes and emits nothing (R38(a), log 8). -/
def Obligations.UndefinedOpcodeAnswersIllegal : Prop :=
  ∀ (s : State) (w : CmdWord) (rest : List Input),
    s.inputs = .command w :: rest →
    (w.extractLsb' 56 8 ∉ ([0x01, 0x02, 0x03, 0x04, 0x05, 0x10, 0x11, 0x12, 0x20, 0x21, 0x22, 0x30, 0x31, 0x32] :
      List Byte)) →
    step s = .next { s with inputs := rest, responses := s.responses ++ [⟨.illegal, 0⟩] }

/-- The machine starts with every element of state at the reset value of R98. -/
def Obligations.ResetStateHoldsResetValues : Prop :=
  State.reset.mode = .config ∧ State.reset.fstate = .idle ∧ State.reset.crc = 0x0000 ∧ State.reset.now = 0 ∧
  (∀ g : Group, State.reset.last[g] = 0 ∧ State.reset.interval[g] = 0) ∧ State.reset.groupEn = 0 ∧
  State.reset.healthCur = 0 ∧ State.reset.healthPrev = 0 ∧
  (∀ i : Slot, State.reset.sensId[i] = 0 ∧ State.reset.sensM[i] = 0 ∧ State.reset.rr[i] = 0) ∧
  State.reset.delim = 0x207D7E7E

/-- The parameters have the values of this hardware (R7): the counts and widths, the group numbers, PRIO and
HEALTH_GROUP, the CRC, the reset values of the register parameters. The FIELD rows are `FieldTableIsTheSpecs`. -/
def Obligations.ParametersHaveTheSpecsValues : Prop :=
  (Config.nGroup = 11 ∧ Config.healthW = 32 ∧ Config.timeW = 32 ∧ Config.nField = 22 ∧ Config.packInW = 32 ∧
    Config.nSens = 4 ∧ Config.crcW = 16) ∧
  [GroupName.gpsPosition, .gpsStatus, .battery, .autopilotStatus, .home, .velocityYaw, .attitudeRange, .vario, .vfas,
    .parameters, .baroAltitude].map hw.groupIndex = [0, 1, 2, 3, 4, 5, 6, 7, 8, 9, 10] ∧
  Function.Bijective hw.groupIndex ∧
  hw.prio = [3, 0, 1, 2, 8, 6, 5, 4, 7, 10, 9] ∧ hw.healthGroup = hw.groupIndex .autopilotStatus ∧
  hw.crc.init = 0xFFFF ∧ (∀ c, hw.crc.final c = c ^^^ 0xFFFF) ∧
  (∀ c b, hw.crc.fold c b =
    (fun x : BitVec 16 => if x.getLsbD 0 = true then (x >>> 1) ^^^ 0x8408 else x >>> 1)^[8] (c ^^^ b.setWidth 16)) ∧
  (hw.startReset = 0x7E ∧ hw.stopReset = 0x7E ∧ hw.escReset = 0x7D ∧ hw.maskReset = 0x20) ∧
  hw.intervalReset = 0 ∧ hw.groupEnReset = 0 ∧ hw.sensIdReset = 0 ∧ hw.sensMReset = 0

/-- The reset event gives every element of state its reset value and leaves WIRE as it is (R98). -/
def Obligations.ResetEventRestoresResetValues : Prop :=
  ∀ (s : State) (rest : List Input), s.inputs = .reset :: rest →
    ∃ t, step s = .next t ∧ t.wire = s.wire ∧
      t.mode = .config ∧ t.fstate = .idle ∧ t.crc = 0x0000 ∧ t.now = 0 ∧
      (∀ g : Group, t.last[g] = 0 ∧ t.interval[g] = 0) ∧ t.groupEn = 0 ∧ t.healthCur = 0 ∧ t.healthPrev = 0 ∧
      (∀ i : Slot, t.sensId[i] = 0 ∧ t.sensM[i] = 0 ∧ t.rr[i] = 0) ∧ t.delim = 0x207D7E7E

/-- With no input the block is idle: the step changes nothing. THE MODEL'S CHOICE (log 2), read from "between commands
the block is simply idle" (spec/60_exceptions.md R96). -/
def Obligations.IdleStepChangesNothing : Prop :=
  ∀ s : State, s.inputs = [] → step s = .next s

/-- No command traps or stops, and every command adds exactly one response (R39, R84); no step stops. -/
def Obligations.EveryCommandAnswersOnce : Prop :=
  (∀ (i : Instr) (s : State), ∃ t r, exec i s = .next t ∧ t.responses = s.responses ++ [r]) ∧
  ∀ s : State, ∃ t, step s = .next t

/-- ILLEGAL is the answer exactly where the mode table of R94 or an operand check of R38(c) fails; then nothing else
changes (R86, R92). -/
def Obligations.IllegalExactlyByModeOrOperand : Prop :=
  ∀ (i : Instr) (s : State),
    (¬(legalInMode i s.mode = true ∧ i.wellFormed = true) →
      exec i s = .next { s with responses := s.responses ++ [⟨.illegal, 0⟩] }) ∧
    (legalInMode i s.mode = true → i.wellFormed = true →
      ∃ t r, exec i s = .next t ∧ t.responses = s.responses ++ [r] ∧ r.status ≠ .illegal)

/-- Each status comes only from the commands the table of R39 lists for it, and with every status but OK and ABANDONED
DATA is 0 (R39, R40, R88, R89). -/
def Obligations.StatusesComeFromTheirCommands : Prop :=
  ∀ (i : Instr) (s t : State) (r : Response), exec i s = .next t → t.responses = s.responses ++ [r] →
    (r.status = .none → (∃ c, i = .tick c) ∨ ∃ b, i = .poll b) ∧
    (r.status = .chunk → i = .tick true) ∧
    (r.status = .notReady → ∃ c, i = .tick c) ∧
    (r.status = .abandoned → isFramer i) ∧
    (r.status = .initFail → i = .init ∧ s.mode = .config ∧ delimValid s.delim = false) ∧
    (r.status = .seqErr → i = .fend ∨ ∃ bs, dataBytes i = some bs) ∧
    (r.status ≠ .ok → r.status ≠ .abandoned → r.data = 0)

/-- The 40-bit response word: the status code of R39 above the 32 bits of DATA. -/
def Obligations.ResponseWordHasTheSpecsCodes : Prop :=
  ∀ r : Response, (responseWord r).toNat =
    (match r.status with
      | .ok => 0x00 | .none => 0x01 | .chunk => 0x02 | .notReady => 0x03 | .abandoned => 0x04 | .initFail => 0x0D
      | .seqErr => 0x0E | .illegal => 0x0F) * 2 ^ 32 + r.data.toNat

/-- No command reads WIRE, the responses given or the commands to come: with others in their place a command makes the
same changes, appends the same bytes and gives the same response (R3, R19, R31). -/
def Obligations.NoCommandReadsTheWire : Prop :=
  ∀ (i : Instr) (s t : State) (w : List Byte) (rs : List Response) (ins : List Input), exec i s = .next t →
    ∃ bs r, t.wire = s.wire ++ bs ∧ t.responses = s.responses ++ [r] ∧
      exec i { s with wire := w, responses := rs, inputs := ins } =
        .next { t with wire := w ++ bs, responses := rs ++ [r], inputs := ins }

/-- MODE changes by a successful INIT and by reset only, and in RUN mode no configuration register changes but by
reset (R8, R34, R94). -/
def Obligations.ModeAndConfigurationDiscipline : Prop :=
  ∀ s t : State, step s = .next t →
    (s.mode = .config → t.mode = .run →
      ∃ w rest, s.inputs = .command w :: rest ∧ decode w = .ok .init ∧ delimValid s.delim = true) ∧
    (s.mode = .run → t.mode = .config → ∃ rest, s.inputs = .reset :: rest) ∧
    (s.mode = .run → (∀ rest, s.inputs ≠ .reset :: rest) →
      t.delim = s.delim ∧ t.groupEn = s.groupEn ∧ t.interval = s.interval ∧ t.sensId = s.sensId ∧
        t.sensM = s.sensM)

/-- Each element of state is written only by the commands the summary table of spec/10_state.md lists for it, and
only framer commands and TICK draw a transport answer (R22, R46). -/
def Obligations.OnlyListedCommandsWrite : Prop :=
  ∀ (i : Instr) (s t : State), exec i s = .next t →
    (t.mode = s.mode ∨ i = .init) ∧
    (t.fstate = s.fstate ∨ isFramer i) ∧
    (t.crc = s.crc ∨ i = .fbegin ∨ ∃ bs, dataBytes i = some bs) ∧
    (t.now = s.now ∨ ∃ c, i = .tick c) ∧
    (t.last = s.last ∨ ∃ c, i = .tick c) ∧
    (t.interval = s.interval ∨ ∃ a v, i = .cfgwr a v) ∧
    (t.groupEn = s.groupEn ∨ ∃ a v, i = .cfgwr a v) ∧
    (t.healthCur = s.healthCur ∨ ∃ m, i = .sethm m) ∧
    (t.healthPrev = s.healthPrev ∨ ∃ c, i = .tick c) ∧
    (t.sensId = s.sensId ∧ t.sensM = s.sensM ∨ ∃ a v, i = .cfgwr a v) ∧
    (t.rr = s.rr ∨ ∃ b, i = .poll b) ∧
    (t.delim = s.delim ∨ ∃ a v, i = .cfgwr a v) ∧
    (t.wire = s.wire ∨ isFramer i) ∧
    (t.answers = s.answers ∧ t.draws = s.draws ∨ isFramer i ∨ ∃ c, i = .tick c) ∧
    t.inputs = s.inputs

/-- WIRE is append-only: no step, not even a reset, removes or alters a byte of it (R19, R25(b)). -/
def Obligations.WireIsAppendOnly : Prop :=
  ∀ s t : State, step s = .next t → ∃ bs, t.wire = s.wire ++ bs

/-! ### Invariants -/

/-- The state after reset meets the invariant, and no frame is open in it. -/
def Obligations.ResetMeetsTheInvariants : Prop :=
  State.reset.Inv ∧ State.reset.FrameOnWire ∧ State.reset.DisabledUntouched

/-- Every step keeps the invariant: fresh state before INIT (R81), a valid DELIM in RUN (R83), every round-robin
counter in range (R16). -/
def Obligations.StepKeepsTheInvariant : Prop :=
  ∀ s t : State, s.Inv → step s = .next t → t.Inv

/-- Every step keeps the open frame's account: WIRE ends with START and the stuffing of exactly the bytes that CRC
folds (R48 to R50). -/
def Obligations.StepKeepsFrameOnWire : Prop :=
  ∀ s t : State, s.Inv → s.FrameOnWire → step s = .next t → t.FrameOnWire

/-- Every step keeps a disabled group's timer at its reset value, and HEALTH_PREV with group 3 disabled
(R14, R105). -/
def Obligations.StepKeepsDisabledGroupsUntouched : Prop :=
  ∀ s t : State, s.Inv → s.DisabledUntouched → step s = .next t → t.DisabledUntouched

/-! ### The framer (spec/40_framer.md) -/

/-- FBEGIN, in any frame state: CRC to 0xFFFF, START attempted bare with one draw; OK 1 and OPEN if it is accepted,
ABANDONED 0 if not (R50). -/
def Obligations.FbeginStartsAFrame : Prop :=
  ∀ s : State, s.mode = .run →
    (s.readyAt 0 = true →
      exec .fbegin s = .next
        { s with
          crc := 0xFFFF, fstate := .opened, wire := s.wire ++ [s.delim.extractLsb' 0 8],
          answers := s.answers.drop 1, draws := s.draws + 1, responses := s.responses ++ [⟨.ok, 1⟩] }) ∧
    (s.readyAt 0 = false →
      exec .fbegin s = .next
        { s with
          crc := 0xFFFF, fstate := .abandoned, answers := s.answers.drop 1, draws := s.draws + 1,
          responses := s.responses ++ [⟨.abandoned, 0⟩] })

/-- FBYTE, FW16 and FW32 in an open frame, every byte accepted: the stuffed data bytes go out in order, the originals
are folded, and the answer is OK with the count of wire bytes (R48, R49, R51 to R53). -/
def Obligations.DataCommandSendsStuffedBytes : Prop :=
  ∀ (i : Instr) (bs : List Byte) (s : State),
    dataBytes i = some bs → s.mode = .run → s.fstate = .opened →
    s.acceptsNext (stuffAll s.delim bs).length →
    exec i s = .next
      { s with
        crc := foldBytes s.crc bs, wire := s.wire ++ stuffAll s.delim bs,
        answers := s.answers.drop (stuffAll s.delim bs).length,
        draws := s.draws + (stuffAll s.delim bs).length,
        responses := s.responses ++ [⟨.ok, BitVec.ofNat 32 (stuffAll s.delim bs).length⟩] }

/-- FBYTE, FW16 and FW32 in an open frame, byte number `k` of the stuffed sequence refused: the `k` bytes before it
are on WIRE, the frame is abandoned, the rest is suppressed and draws nothing, and the answer is ABANDONED with `k`;
the byte being sent is folded all the same (R47 to R49, R51 to R53, R88). -/
def Obligations.DataCommandAbandonsAtRefusedByte : Prop :=
  ∀ (i : Instr) (bs : List Byte) (s : State) (k : Nat),
    dataBytes i = some bs → s.mode = .run → s.fstate = .opened →
    k < (stuffAll s.delim bs).length → s.refusesAt k →
    exec i s = .next
      { s with
        crc := foldBytes s.crc (bytesTried s.delim bs k), fstate := .abandoned,
        wire := s.wire ++ (stuffAll s.delim bs).take k,
        answers := s.answers.drop (k + 1), draws := s.draws + (k + 1),
        responses := s.responses ++ [⟨.abandoned, BitVec.ofNat 32 k⟩] }

/-- FBYTE, FW16 and FW32 in an abandoned frame: ABANDONED 0, nothing drawn, emitted or folded (R51 to R53, R88). -/
def Obligations.DataCommandSuppressedWhenAbandoned : Prop :=
  ∀ (i : Instr) (bs : List Byte) (s : State),
    dataBytes i = some bs → s.mode = .run → s.fstate = .abandoned →
    exec i s = .next { s with responses := s.responses ++ [⟨.abandoned, 0⟩] }

/-- With no frame open FBYTE, FW16, FW32 and FEND answer SEQERR, DATA 0, with no state change; FBEGIN never answers
SEQERR; and no frame is open exactly until FBEGIN and again after FEND: a command leaves FSTATE at IDLE exactly if it was
IDLE and the command is no FBEGIN in RUN mode, or the command is FEND in RUN mode (R87). -/
def Obligations.NoOpenFrameAnswersSeqerr : Prop :=
  (∀ (i : Instr) (s : State), ((∃ bs, dataBytes i = some bs) ∨ i = .fend) → s.mode = .run → s.fstate = .idle →
    exec i s = .next { s with responses := s.responses ++ [⟨.seqErr, 0⟩] }) ∧
  (∀ s : State, ∃ t r, exec .fbegin s = .next t ∧ t.responses = s.responses ++ [r] ∧ r.status ≠ .seqErr) ∧
  ∀ (i : Instr) (s t : State), exec i s = .next t →
    (t.fstate = .idle ↔
      (s.fstate = .idle ∧ ¬(i = .fbegin ∧ s.mode = .run)) ∨ (i = .fend ∧ s.mode = .run))

/-- FEND in an open frame, every byte accepted: the stuffed trailer, low byte first and not folded, then STOP bare;
FSTATE to IDLE; OK with the count (R54). -/
def Obligations.FendClosesTheFrame : Prop :=
  ∀ s : State, s.mode = .run → s.fstate = .opened →
    s.acceptsNext (endBytes s.delim s.crc).length →
    exec .fend s = .next
      { s with
        fstate := .idle, wire := s.wire ++ endBytes s.delim s.crc,
        answers := s.answers.drop (endBytes s.delim s.crc).length,
        draws := s.draws + (endBytes s.delim s.crc).length,
        responses := s.responses ++ [⟨.ok, BitVec.ofNat 32 (endBytes s.delim s.crc).length⟩] }

/-- FEND in an open frame, its byte number `k` refused: the `k` bytes before it are on WIRE, nothing more is attempted,
FSTATE to IDLE, ABANDONED with `k` (R54, R88). -/
def Obligations.FendAbandonsAtRefusedByte : Prop :=
  ∀ (s : State) (k : Nat), s.mode = .run → s.fstate = .opened →
    k < (endBytes s.delim s.crc).length → s.refusesAt k →
    exec .fend s = .next
      { s with
        fstate := .idle, wire := s.wire ++ (endBytes s.delim s.crc).take k,
        answers := s.answers.drop (k + 1), draws := s.draws + (k + 1),
        responses := s.responses ++ [⟨.abandoned, BitVec.ofNat 32 k⟩] }

/-- FEND after an abandoned frame: back to IDLE with ABANDONED 0, nothing emitted and nothing drawn (R54(d), R88). -/
def Obligations.FendLeavesAbandonedFrame : Prop :=
  ∀ s : State, s.mode = .run → s.fstate = .abandoned →
    exec .fend s = .next { s with fstate := .idle, responses := s.responses ++ [⟨.abandoned, 0⟩] }

/-- FBEGIN, any data commands, FEND, every byte accepted: exactly the complete frame of R42 is appended to WIRE, and
its length is between 4 + n and 2 + 2(n + 2) for n data bytes. -/
def Obligations.CompleteFrameGoesOnTheWire : Prop :=
  ∀ (s : State) (cmds : List Instr) (data : List (List Byte)),
    s.mode = .run → cmds.map dataBytes = data.map some →
    s.acceptsNext (frameBytes s.delim data.flatten).length →
    ∃ t, execAll (.fbegin :: (cmds ++ [.fend])) s = .next t ∧
      t.wire = s.wire ++ frameBytes s.delim data.flatten ∧ t.fstate = .idle ∧
      4 + data.flatten.length ≤ (frameBytes s.delim data.flatten).length ∧
      (frameBytes s.delim data.flatten).length ≤ 2 + 2 * (data.flatten.length + 2)

/-- Escape safety: a complete frame with a DELIM that INIT admits starts with START, ends with STOP, and between them
has no START or STOP, and ESC only as the first byte of an escape whose second byte is not reserved (R55). -/
def Obligations.CompleteFrameIsEscapeSafe : Prop :=
  ∀ (d : Word) (bs : List Byte), delimValid d = true →
    (frameBytes d bs).head? = some (d.extractLsb' 0 8) ∧ (frameBytes d bs).getLast? = some (d.extractLsb' 8 8) ∧
    (∀ b ∈ innerBytes (frameBytes d bs), b ≠ d.extractLsb' 0 8 ∧ b ≠ d.extractLsb' 8 8) ∧
    escapeSafe d (innerBytes (frameBytes d bs)) = true

/-- The round-trip law: for every data sequence and every valid DELIM, if the transport accepts every byte, `deframe`
of the bytes that FBEGIN, the data commands (one FBYTE for each byte, or FW16 and FW32) and FEND append to WIRE is the
data (R56). -/
def Obligations.DeframeRecoversTheData : Prop :=
  ∀ (s : State) (cmds : List Instr) (data : List (List Byte)),
    s.mode = .run → delimValid s.delim = true → cmds.map dataBytes = data.map some →
    s.acceptsNext (frameBytes s.delim data.flatten).length →
    ∃ t w, execAll (.fbegin :: (cmds ++ [.fend])) s = .next t ∧ t.wire = s.wire ++ w ∧
      deframe s.delim w = some data.flatten

/-- Replacing exactly one byte of the unescaped sequence, data or trailer, by a different value makes `deframe` of any
wire sequence that unescapes to it return FAIL (R57). -/
def Obligations.SingleByteCorruptionDetected : Prop :=
  ∀ (d : Word) (bs : List Byte) (j : Nat) (b : Byte) (w : List Byte),
    (bs ++ trailerBytes (foldBytes hw.crc.init bs))[j]? ≠ none →
    (bs ++ trailerBytes (foldBytes hw.crc.init bs))[j]? ≠ some b →
    unescape d (innerBytes w) = some ((bs ++ trailerBytes (foldBytes hw.crc.init bs)).set j b) →
    deframe d w = none

/-- Folding a sequence followed by its own trailer, low byte then high byte, leaves the accumulator at 0xF0B8; the CRC
of the nine bytes of "123456789" is 0x906E and that of the empty sequence is 0 (R45). -/
def Obligations.CrcResidueIsConstant : Prop :=
  (∀ bs : List Byte, foldBytes 0xFFFF (bs ++ trailerBytes (foldBytes 0xFFFF bs)) = 0xF0B8) ∧
  hw.crc.final (foldBytes hw.crc.init [0x31, 0x32, 0x33, 0x34, 0x35, 0x36, 0x37, 0x38, 0x39]) = 0x906E ∧
  hw.crc.final (foldBytes hw.crc.init []) = 0x0000

/-! ### The packer (spec/41_packer.md) -/

/-- The FieldSpec table has the 22 rows of R58, and every row satisfies 1 ≤ width, offset + width ≤ 32 and
limit ≤ 2^width - 1. -/
def Obligations.FieldTableIsTheSpecs : Prop :=
  hw.fields.toList.map (fun f => (f.width, f.offset, f.limit)) =
    [(4, 0, 0xF), (2, 4, 0x3), (8, 6, 0xFF), (8, 14, 0xFF), (10, 22, 0x3FF), (9, 0, 0x1FF), (8, 9, 0xFF),
      (15, 17, 0x7FFF), (5, 0, 0x1F), (2, 5, 0x3), (1, 7, 0x1), (1, 8, 0x1), (1, 9, 0x1), (1, 10, 0x1),
      (12, 12, 0xFFF), (7, 25, 0x7F), (9, 0, 0x1FF), (8, 9, 0xFF), (11, 17, 0x7FF), (11, 0, 0x7FF),
      (10, 11, 0x3FF), (11, 21, 0x7FF)] ∧
  hw.fields.toList.map (fun f => hw.groupIndex f.word) =
    [1, 1, 1, 1, 1, 2, 2, 2, 3, 3, 3, 3, 3, 3, 4, 4, 5, 5, 5, 6, 6, 6] ∧
  ∀ f ∈ hw.fields, 1 ≤ f.width ∧ f.offset + f.width ≤ 32 ∧ f.limit ≤ 2 ^ f.width - 1

/-- PACK, in either mode: a row index up to 21 answers OK with the value, read as two's complement, clamped to
[0, limit] and multiplied by 2^offset; above 21, ILLEGAL; no state is written (R60, R62). -/
def Obligations.PackAnswersTheClampedLane : Prop :=
  ∀ (s : State) (i : Byte) (v : Word),
    (∀ f, hw.fields[i.toNat]? = some f →
      exec (.pack i v) s = .next
        { s with
          responses := s.responses ++
            [⟨.ok, BitVec.ofNat 32 ((min (max v.toInt 0) f.limit).toNat * 2 ^ f.offset)⟩] }) ∧
    (i.toNat > 21 → exec (.pack i v) s = .next { s with responses := s.responses ++ [⟨.illegal, 0⟩] })

/-- UNPACK, in either mode: a row index up to 21 answers OK with bits offset up to offset + width of the word,
right-aligned; above 21, ILLEGAL; no state is written (R61, R63). -/
def Obligations.UnpackAnswersTheLane : Prop :=
  ∀ (s : State) (i : Byte) (w : Word),
    (∀ f, hw.fields[i.toNat]? = some f →
      exec (.unpack i w) s = .next
        { s with
          responses := s.responses ++ [⟨.ok, BitVec.ofNat 32 (w.toNat / 2 ^ f.offset % 2 ^ f.width)⟩] }) ∧
    (i.toNat > 21 → exec (.unpack i w) s = .next { s with responses := s.responses ++ [⟨.illegal, 0⟩] })

/-- The round-trip law and its consequences: unpacking a packed value gives the clamped value; packing the clamped
value gives the same lane; and OR-combining with another lane of the same word does not disturb it (R64). -/
def Obligations.UnpackInvertsPack : Prop :=
  ∀ (i : Nat) (f : FieldSpec) (v : Int), hw.fields[i]? = some f →
    ((unpackField f (packField f v)).toNat : Int) = clamp v 0 f.limit ∧
    packField f (clamp v 0 f.limit) = packField f v ∧
    ∀ (j : Nat) (g : FieldSpec) (u : Int), hw.fields[j]? = some g → g.word = f.word → i ≠ j →
      ((unpackField f (packField f v ||| packField g u)).toNat : Int) = clamp v 0 f.limit

/-- A packed value has no bit set outside its lane (R60). -/
def Obligations.PackStaysInItsLane : Prop :=
  ∀ (f : FieldSpec) (v : Int) (k : Nat), f ∈ hw.fields → (packField f v).getLsbD k = true →
    f.offset ≤ k ∧ k < f.offset + f.width

/-- DSPLIT, in either mode: for up to 4 digits the value is q * 10^k + r with r of the value's sign and smaller than
10^k; the answer is OK with q saturated to s16 above r; more digits, ILLEGAL; no state is written (R65). -/
def Obligations.DsplitSplitsAtThePoint : Prop :=
  ∀ (s : State) (k : Byte) (v : Word),
    (k.toNat ≤ 4 →
      ∃ q r : Int, v.toInt = q * 10 ^ k.toNat + r ∧ |r| < 10 ^ k.toNat ∧ (0 ≤ v.toInt → 0 ≤ r) ∧
        (v.toInt ≤ 0 → r ≤ 0) ∧
        exec (.dsplit k v) s = .next
          { s with
            responses := s.responses ++
              [⟨.ok, BitVec.ofInt 16 (min (max q (-32768)) 32767) ++ BitVec.ofInt 16 r⟩] }) ∧
    (k.toNat > 4 → exec (.dsplit k v) s = .next { s with responses := s.responses ++ [⟨.illegal, 0⟩] })

/-- The packer is stateless: the response of PACK, UNPACK and DSPLIT depends on the command alone, and they write no
state, draw nothing and append nothing to WIRE (R66). -/
def Obligations.PackerDependsOnTheCommandAlone : Prop :=
  ∀ i : Instr, isPacker i = true →
    ∃ r : Response, ∀ s : State, exec i s = .next { s with responses := s.responses ++ [r] }

/-! ### The scheduler (spec/42_scheduler.md) -/

/-- TICK with the transport not ready: NOW advances, one draw, NOTREADY; no timer and no health register changes
(R71(a), R72). -/
def Obligations.UnreadyTickOnlyCountsTime : Prop :=
  ∀ (s : State) (c : Bool), s.mode = .run → s.readyAt 0 = false →
    exec (.tick c) s = .next
      { s with
        now := s.now + 1, answers := s.answers.drop 1, draws := s.draws + 1,
        responses := s.responses ++ [⟨.notReady, 0⟩] }

/-- TICK with a chunk pending and the transport ready: CHUNK; only NOW advances, so a pending change or an overdue
group stays pending (R71(b), R72). -/
def Obligations.PendingChunkPreemptsTheTick : Prop :=
  ∀ s : State, s.mode = .run → s.readyAt 0 = true →
    exec (.tick true) s = .next
      { s with
        now := s.now + 1, answers := s.answers.drop 1, draws := s.draws + 1,
        responses := s.responses ++ [⟨.chunk, 0⟩] }

/-- TICK with the health trigger pending selects group 3 whatever the timers say, resets its timer to the time of the
tick and consumes the change (R70, R72). -/
def Obligations.HealthChangeSelectsAutopilotStatus : Prop :=
  ∀ s : State, s.mode = .run → s.readyAt 0 = true → s.HealthTriggered →
    exec (.tick false) s = .next
      { s with
        now := s.now + 1, last := s.last.set 3 s.now, healthPrev := s.healthCur,
        answers := s.answers.drop 1, draws := s.draws + 1, responses := s.responses ++ [⟨.ok, 3⟩] }

/-- TICK without a trigger selects the eligible group with the largest overrun, ties by PRIO, answers its number and
resets its timer; selecting group 3 also sets HEALTH_PREV (R69, R70, R72). -/
def Obligations.TickSelectsTheLargestOverrun : Prop :=
  ∀ (s : State) (g : Group), s.mode = .run → s.readyAt 0 = true → ¬s.HealthTriggered → s.IsSelected s.now g →
    exec (.tick false) s = .next
      { s with
        now := s.now + 1, last := s.last.set g s.now,
        healthPrev := if g = 3 then s.healthCur else s.healthPrev,
        answers := s.answers.drop 1, draws := s.draws + 1,
        responses := s.responses ++ [⟨.ok, BitVec.ofNat 32 g.val⟩] }

/-- TICK with no trigger and no eligible group answers NONE and only NOW advances (R72). -/
def Obligations.TickWithNothingDueAnswersNone : Prop :=
  ∀ s : State, s.mode = .run → s.readyAt 0 = true → ¬s.HealthTriggered → (∀ g, ¬s.IsEligible s.now g) →
    exec (.tick false) s = .next
      { s with
        now := s.now + 1, answers := s.answers.drop 1, draws := s.draws + 1,
        responses := s.responses ++ [⟨.none, 0⟩] }

/-- The rules of R69 name exactly one group whenever some group is eligible, and none otherwise. -/
def Obligations.SelectionIsUnique : Prop :=
  ∀ (s : State) (t : Time),
    ((∃ g, s.IsEligible t g) → ∃ g, s.IsSelected t g) ∧
    ∀ g h, s.IsSelected t g → s.IsSelected t h → g = h

/-- No enabled group starves: a group overdue by at least one tick is selected within the next eleven ticks, if they
are ready and not preempted and its elapsed time does not wrap meanwhile (R69, R72(b), R104). -/
def Obligations.OverdueGroupIsServedWithinElevenTicks : Prop :=
  ∀ (s : State) (g : Group),
    s.mode = .run → s.groupEn.getLsbD g.val = true → s.interval[g].toNat < s.elapsedTicks s.now g →
    s.elapsedTicks s.now g + 11 < 2 ^ 32 → s.acceptsNext 11 →
    ∃ k t u, k < 11 ∧ execAll (List.replicate k (.tick false)) s = .next t ∧ exec (.tick false) t = .next u ∧
      u.responses = t.responses ++ [⟨.ok, BitVec.ofNat 32 g.val⟩] ∧ u.last[g] = t.now

/-- SETHM writes HEALTH_CUR and nothing else, and selects and emits nothing by itself: a change is noticed at the next
TICK, which then selects group 3, if enabled, and takes the mask over. Its word is opcode 0x21 with the mask in C
(R73). -/
def Obligations.SethmWritesTheCurrentMask : Prop :=
  (∀ (a : Byte) (b : Half) (m : Word), decode ((0x21 : Byte) ++ a ++ b ++ m) = .ok (.sethm m)) ∧
  ∀ (s : State) (m : Word), s.mode = .run →
    exec (.sethm m) s = .next { s with healthCur := m, responses := s.responses ++ [⟨.ok, 0⟩] } ∧
    (s.groupEn.getLsbD 3 = true → m ≠ s.healthPrev → s.readyAt 0 = true →
      ∃ t, execAll [.sethm m, .tick false] s = .next t ∧ t.healthPrev = m ∧
        t.responses = s.responses ++ [⟨.ok, 0⟩, ⟨.ok, 3⟩])

/-- POLL of a served id answers the lowest matching slot in bits 15:8 and its old counter in bits 7:0, and advances
that counter modulo SENS_M (R75, R76). The counter is in range, as the invariant says (R16). -/
def Obligations.PollReportsAndAdvances : Prop :=
  ∀ (s : State) (b : Byte) (i : Slot), s.mode = .run → s.IsPollSlot b i → s.rr[i].toNat < s.sensM[i].toNat →
    exec (.poll b) s = .next
      { s with
        rr := s.rr.set i (BitVec.ofNat 8 ((s.rr[i].toNat + 1) % s.sensM[i].toNat)),
        responses := s.responses ++ [⟨.ok, BitVec.ofNat 32 (i.val * 256 + s.rr[i].toNat)⟩] }

/-- POLL of an id no slot serves answers NONE and changes nothing (R76, R85). -/
def Obligations.UnknownPollIsIgnored : Prop :=
  ∀ (s : State) (b : Byte), s.mode = .run → (∀ i : Slot, ¬(s.sensM[i] ≠ 0 ∧ s.sensId[i] = b)) →
    exec (.poll b) s = .next { s with responses := s.responses ++ [⟨.none, 0⟩] }

/-- Round-robin coverage: from a counter at 0, after any commands in RUN mode among which are k matching POLLs, the
next matching POLL reports value k mod M: polls of other ids, and all other commands, do not change the sequence
(R78). -/
def Obligations.PollsCycleThroughEveryValue : Prop :=
  ∀ (s : State) (b : Byte) (i : Slot) (cmds : List Instr),
    s.mode = .run → s.IsPollSlot b i → s.rr[i] = 0 →
    ∃ t u, execAll cmds s = .next t ∧ exec (.poll b) t = .next u ∧
      u.responses = t.responses ++
        [⟨.ok, BitVec.ofNat 32 (i.val * 256 + cmds.count (.poll b) % s.sensM[i].toNat)⟩]

/-! ### The system commands (spec/43_system.md) -/

/-- CFGWR in CONFIG mode writes the one register named, its writable bits only; at every other index, and in RUN mode,
it is ILLEGAL and writes nothing (R26, R28, R79). -/
def Obligations.CfgwrWritesTheNamedRegister : Prop :=
  ∀ (s : State) (v : Word),
    (s.mode = .config →
      exec (.cfgwr 0x01 v) s = .next { s with delim := v, responses := s.responses ++ [⟨.ok, 0⟩] } ∧
      exec (.cfgwr 0x02 v) s = .next
        { s with groupEn := v.extractLsb' 0 11, responses := s.responses ++ [⟨.ok, 0⟩] } ∧
      (∀ g : Group, exec (.cfgwr (BitVec.ofNat 8 (0x10 + g.val)) v) s = .next
        { s with interval := s.interval.set g v, responses := s.responses ++ [⟨.ok, 0⟩] }) ∧
      (∀ i : Slot, exec (.cfgwr (BitVec.ofNat 8 (0x30 + i.val)) v) s = .next
        { s with
          sensId := s.sensId.set i (v.extractLsb' 0 8), sensM := s.sensM.set i (v.extractLsb' 8 8),
          responses := s.responses ++ [⟨.ok, 0⟩] }) ∧
      ∀ a : Byte, a ≠ 0x01 → a ≠ 0x02 → ¬(0x10 ≤ a.toNat ∧ a.toNat ≤ 0x1A) → ¬(0x30 ≤ a.toNat ∧ a.toNat ≤ 0x33) →
        exec (.cfgwr a v) s = .next { s with responses := s.responses ++ [⟨.illegal, 0⟩] }) ∧
    (s.mode = .run →
      ∀ a : Byte, exec (.cfgwr a v) s = .next { s with responses := s.responses ++ [⟨.illegal, 0⟩] })

/-- CFGRD, in either mode, answers the 32-bit view of the register map and changes nothing; an index without a row is
ILLEGAL (R26, R28, R80). -/
def Obligations.CfgrdAnswersTheRegisterView : Prop :=
  ∀ (s : State),
    let reads := fun (a : Byte) (v : Word) =>
      exec (.cfgrd a) s = .next { s with responses := s.responses ++ [⟨.ok, v⟩] }
    reads 0x00 (BitVec.ofNat 32
      ((match s.mode with | .config => 0 | .run => 1) +
        2 * (match s.fstate with | .idle => 0 | .opened => 1 | .abandoned => 2))) ∧
    reads 0x01 s.delim ∧ reads 0x02 (BitVec.ofNat 32 s.groupEn.toNat) ∧ reads 0x03 s.now ∧
    reads 0x04 s.healthCur ∧ reads 0x05 s.healthPrev ∧
    (∀ g : Group, reads (BitVec.ofNat 8 (0x10 + g.val)) s.interval[g] ∧
      reads (BitVec.ofNat 8 (0x20 + g.val)) s.last[g]) ∧
    (∀ i : Slot, reads (BitVec.ofNat 8 (0x30 + i.val))
      (BitVec.ofNat 32 (s.sensId[i].toNat + 256 * s.sensM[i].toNat + 65536 * s.rr[i].toNat))) ∧
    ∀ a : Byte, ¬a.toNat ≤ 0x05 → ¬(0x10 ≤ a.toNat ∧ a.toNat ≤ 0x1A) → ¬(0x20 ≤ a.toNat ∧ a.toNat ≤ 0x2A) →
      ¬(0x30 ≤ a.toNat ∧ a.toNat ≤ 0x33) →
      exec (.cfgrd a) s = .next { s with responses := s.responses ++ [⟨.illegal, 0⟩] }

/-- INIT in CONFIG mode: a valid DELIM makes MODE RUN and alters nothing else; an invalid one answers INITFAIL and the
block stays in CONFIG; in RUN mode INIT is ILLEGAL (R81, R89). -/
def Obligations.InitEntersRunOrFailsFast : Prop :=
  ∀ s : State,
    (s.mode = .config → delimValid s.delim = true →
      exec .init s = .next { s with mode := .run, responses := s.responses ++ [⟨.ok, 0⟩] }) ∧
    (s.mode = .config → delimValid s.delim = false →
      exec .init s = .next { s with responses := s.responses ++ [⟨.initFail, 0⟩] }) ∧
    (s.mode = .run → exec .init s = .next { s with responses := s.responses ++ [⟨.illegal, 0⟩] })

/-- `delim_valid` holds exactly under the conditions of R83; START = STOP is allowed, and the reset value is valid. -/
def Obligations.DelimValidityConditions : Prop :=
  (∀ start stop esc mask : Byte,
    delimValid (mask ++ esc ++ stop ++ start) = true ↔
      (esc ≠ start ∧ esc ≠ stop) ∧ mask ≠ 0 ∧
        ∀ r ∈ [start, stop, esc], r ^^^ mask ∉ [start, stop, esc]) ∧
  delimValid 0x207D7E7E = true

end
end

