-- ==== Sys2Proof/Laws/Encoding.lean ====
section
/-! SUPPORT. The fields of an assembled command word (spec/30_encoding.md R35, R41), for proofs about the decoder and
the encoder. -/

namespace Sys2Proof

theorem opcField_assemble (o a : Byte) (b : Half) (c : Word) : opcField (assemble o a b c) = o := by
  unfold opcField assemble
  ext i hi
  simp
  grind

theorem aField_assemble (o a : Byte) (b : Half) (c : Word) : aField (assemble o a b c) = a := by
  unfold aField assemble
  ext i hi
  simp
  grind

theorem bField_assemble (o a : Byte) (b : Half) (c : Word) : bField (assemble o a b c) = b := by
  unfold bField assemble
  ext i hi
  simp
  grind

theorem cField_assemble (o a : Byte) (b : Half) (c : Word) : cField (assemble o a b c) = c := by
  unfold cField assemble
  ext i hi
  simp
  grind

theorem cLowField_assemble (o a : Byte) (b : Half) (c : Word) :
    cLowField (assemble o a b c) = c.setWidth 16 := by
  unfold cLowField assemble
  ext i hi
  simp
  grind

theorem a0Field_assemble (o a : Byte) (b : Half) (c : Word) : a0Field (assemble o a b c) = a.getLsbD 0 := by
  simp only [a0Field, assemble, BitVec.getLsbD_append]
  simp

/-- The bits of an assembled word. -/
theorem getLsbD_assemble (o a : Byte) (b : Half) (c : Word) (k : Nat) :
    (assemble o a b c).getLsbD k =
      if k < 32 then c.getLsbD k
      else if k < 48 then b.getLsbD (k - 32)
      else if k < 56 then a.getLsbD (k - 48)
      else o.getLsbD (k - 56) := by
  simp only [assemble, BitVec.getLsbD_append]
  grind

/-- A command word is made of its four fields. -/
theorem assemble_fields (w : CmdWord) : assemble (opcField w) (aField w) (bField w) (cField w) = w := by
  apply BitVec.eq_of_getLsbD_eq
  intro k hk
  rw [getLsbD_assemble]
  simp only [opcField, aField, bField, cField, BitVec.getLsbD_extractLsb']
  repeat' split
  all_goals grind

/-- Masking a word field by field. -/
theorem assemble_and (o a o' a' : Byte) (b b' : Half) (c c' : Word) :
    assemble o a b c &&& assemble o' a' b' c' = assemble (o &&& o') (a &&& a') (b &&& b') (c &&& c') := by
  apply BitVec.eq_of_getLsbD_eq
  intro k _
  simp only [BitVec.getLsbD_and, getLsbD_assemble]
  repeat' split
  all_goals rfl

end Sys2Proof
end

