-- ==== Sys2Proof/Laws/Params.lean ====
section
/-! SUPPORT. The values of the counts and widths (spec/00_scope.md R7), one fact each: `omega` sees a number where one of
them stands only once its fact is in the context. And what the operations over these widths are at their values. -/

namespace Sys2Proof.Machine

theorem config_nGroup_eq : Config.nGroup = 11 := rfl

theorem config_nSens_eq : Config.nSens = 4 := rfl

theorem config_nField_eq : Config.nField = 22 := rfl

theorem config_timeW_eq : Config.timeW = 32 := rfl

theorem config_healthW_eq : Config.healthW = 32 := rfl

theorem config_crcW_eq : Config.crcW = 16 := rfl

theorem config_packInW_eq : Config.packInW = 32 := rfl

@[simp] theorem hw_healthGroup_val : hw.healthGroup.val = 3 := rfl

/-- A PACK input is the whole operand, read as `as_s32` (spec/41_packer.md R62). -/
@[simp] theorem packInput_eq (c : Word) : packInput c = asS32 c := by
  simp [packInput, asS32]

/-- The trailer is two bytes, low byte first (spec/40_framer.md R54). -/
theorem crcBytes_eq (c : Crc) : crcBytes c = [c.extractLsb' 0 8, c.extractLsb' 8 8] := rfl

end Sys2Proof.Machine
end

