-- ==== Sys2Proof/Laws/State.lean ====
section
/-! SUPPORT. One lemma for each field of State and each shared update of Machine/Ops.lean, true by rfl, so that no
later proof unfolds an update. -/

namespace Sys2Proof.Machine

/-! ### `respond` -/

@[simp] theorem State.respond_mode (s : State) (st : Status) (d : Word) : (s.respond st d).mode = s.mode := rfl
@[simp] theorem State.respond_fstate (s : State) (st : Status) (d : Word) : (s.respond st d).fstate = s.fstate := rfl
@[simp] theorem State.respond_crc (s : State) (st : Status) (d : Word) : (s.respond st d).crc = s.crc := rfl
@[simp] theorem State.respond_now (s : State) (st : Status) (d : Word) : (s.respond st d).now = s.now := rfl
@[simp] theorem State.respond_last (s : State) (st : Status) (d : Word) : (s.respond st d).last = s.last := rfl
@[simp] theorem State.respond_interval (s : State) (st : Status) (d : Word) :
    (s.respond st d).interval = s.interval := rfl
@[simp] theorem State.respond_groupEn (s : State) (st : Status) (d : Word) :
    (s.respond st d).groupEn = s.groupEn := rfl
@[simp] theorem State.respond_healthCur (s : State) (st : Status) (d : Word) :
    (s.respond st d).healthCur = s.healthCur := rfl
@[simp] theorem State.respond_healthPrev (s : State) (st : Status) (d : Word) :
    (s.respond st d).healthPrev = s.healthPrev := rfl
@[simp] theorem State.respond_sensId (s : State) (st : Status) (d : Word) : (s.respond st d).sensId = s.sensId := rfl
@[simp] theorem State.respond_sensM (s : State) (st : Status) (d : Word) : (s.respond st d).sensM = s.sensM := rfl
@[simp] theorem State.respond_rr (s : State) (st : Status) (d : Word) : (s.respond st d).rr = s.rr := rfl
@[simp] theorem State.respond_delim (s : State) (st : Status) (d : Word) : (s.respond st d).delim = s.delim := rfl
@[simp] theorem State.respond_wire (s : State) (st : Status) (d : Word) : (s.respond st d).wire = s.wire := rfl
@[simp] theorem State.respond_responses (s : State) (st : Status) (d : Word) :
    (s.respond st d).responses = s.responses ++ [⟨st, d⟩] := rfl
@[simp] theorem State.respond_inputs (s : State) (st : Status) (d : Word) : (s.respond st d).inputs = s.inputs := rfl
@[simp] theorem State.respond_answers (s : State) (st : Status) (d : Word) :
    (s.respond st d).answers = s.answers := rfl
@[simp] theorem State.respond_draws (s : State) (st : Status) (d : Word) : (s.respond st d).draws = s.draws := rfl

@[simp] theorem State.raise_eq (s : State) (st : Status) (d : Word) : s.raise st d = s.respond st d := rfl

/-! ### `draw` -/

@[simp] theorem State.draw_mode (s : State) : (s.draw).mode = s.mode := rfl
@[simp] theorem State.draw_fstate (s : State) : (s.draw).fstate = s.fstate := rfl
@[simp] theorem State.draw_crc (s : State) : (s.draw).crc = s.crc := rfl
@[simp] theorem State.draw_now (s : State) : (s.draw).now = s.now := rfl
@[simp] theorem State.draw_last (s : State) : (s.draw).last = s.last := rfl
@[simp] theorem State.draw_interval (s : State) : (s.draw).interval = s.interval := rfl
@[simp] theorem State.draw_groupEn (s : State) : (s.draw).groupEn = s.groupEn := rfl
@[simp] theorem State.draw_healthCur (s : State) : (s.draw).healthCur = s.healthCur := rfl
@[simp] theorem State.draw_healthPrev (s : State) : (s.draw).healthPrev = s.healthPrev := rfl
@[simp] theorem State.draw_sensId (s : State) : (s.draw).sensId = s.sensId := rfl
@[simp] theorem State.draw_sensM (s : State) : (s.draw).sensM = s.sensM := rfl
@[simp] theorem State.draw_rr (s : State) : (s.draw).rr = s.rr := rfl
@[simp] theorem State.draw_delim (s : State) : (s.draw).delim = s.delim := rfl
@[simp] theorem State.draw_wire (s : State) : (s.draw).wire = s.wire := rfl
@[simp] theorem State.draw_responses (s : State) : (s.draw).responses = s.responses := rfl
@[simp] theorem State.draw_inputs (s : State) : (s.draw).inputs = s.inputs := rfl
@[simp] theorem State.draw_answers (s : State) : (s.draw).answers = s.answers.tail := rfl
@[simp] theorem State.draw_draws (s : State) : (s.draw).draws = s.draws + 1 := rfl

/-! ### `markSent` -/

@[simp] theorem State.markSent_mode (s : State) (t : Time) (g : Group) : (s.markSent t g).mode = s.mode := rfl
@[simp] theorem State.markSent_fstate (s : State) (t : Time) (g : Group) : (s.markSent t g).fstate = s.fstate := rfl
@[simp] theorem State.markSent_crc (s : State) (t : Time) (g : Group) : (s.markSent t g).crc = s.crc := rfl
@[simp] theorem State.markSent_now (s : State) (t : Time) (g : Group) : (s.markSent t g).now = s.now := rfl
@[simp] theorem State.markSent_last (s : State) (t : Time) (g : Group) : (s.markSent t g).last = s.last.set g t := rfl
@[simp] theorem State.markSent_interval (s : State) (t : Time) (g : Group) :
    (s.markSent t g).interval = s.interval := rfl
@[simp] theorem State.markSent_groupEn (s : State) (t : Time) (g : Group) :
    (s.markSent t g).groupEn = s.groupEn := rfl
@[simp] theorem State.markSent_healthCur (s : State) (t : Time) (g : Group) :
    (s.markSent t g).healthCur = s.healthCur := rfl
@[simp] theorem State.markSent_healthPrev (s : State) (t : Time) (g : Group) :
    (s.markSent t g).healthPrev = if g = hw.healthGroup then s.healthCur else s.healthPrev := rfl
@[simp] theorem State.markSent_sensId (s : State) (t : Time) (g : Group) : (s.markSent t g).sensId = s.sensId := rfl
@[simp] theorem State.markSent_sensM (s : State) (t : Time) (g : Group) : (s.markSent t g).sensM = s.sensM := rfl
@[simp] theorem State.markSent_rr (s : State) (t : Time) (g : Group) : (s.markSent t g).rr = s.rr := rfl
@[simp] theorem State.markSent_delim (s : State) (t : Time) (g : Group) : (s.markSent t g).delim = s.delim := rfl
@[simp] theorem State.markSent_wire (s : State) (t : Time) (g : Group) : (s.markSent t g).wire = s.wire := rfl
@[simp] theorem State.markSent_responses (s : State) (t : Time) (g : Group) :
    (s.markSent t g).responses = s.responses := rfl
@[simp] theorem State.markSent_inputs (s : State) (t : Time) (g : Group) : (s.markSent t g).inputs = s.inputs := rfl
@[simp] theorem State.markSent_answers (s : State) (t : Time) (g : Group) :
    (s.markSent t g).answers = s.answers := rfl
@[simp] theorem State.markSent_draws (s : State) (t : Time) (g : Group) : (s.markSent t g).draws = s.draws := rfl

/-! ### `advance` -/

@[simp] theorem State.advance_mode (s : State) (i : Slot) : (s.advance i).mode = s.mode := rfl
@[simp] theorem State.advance_fstate (s : State) (i : Slot) : (s.advance i).fstate = s.fstate := rfl
@[simp] theorem State.advance_crc (s : State) (i : Slot) : (s.advance i).crc = s.crc := rfl
@[simp] theorem State.advance_now (s : State) (i : Slot) : (s.advance i).now = s.now := rfl
@[simp] theorem State.advance_last (s : State) (i : Slot) : (s.advance i).last = s.last := rfl
@[simp] theorem State.advance_interval (s : State) (i : Slot) : (s.advance i).interval = s.interval := rfl
@[simp] theorem State.advance_groupEn (s : State) (i : Slot) : (s.advance i).groupEn = s.groupEn := rfl
@[simp] theorem State.advance_healthCur (s : State) (i : Slot) : (s.advance i).healthCur = s.healthCur := rfl
@[simp] theorem State.advance_healthPrev (s : State) (i : Slot) : (s.advance i).healthPrev = s.healthPrev := rfl
@[simp] theorem State.advance_sensId (s : State) (i : Slot) : (s.advance i).sensId = s.sensId := rfl
@[simp] theorem State.advance_sensM (s : State) (i : Slot) : (s.advance i).sensM = s.sensM := rfl
@[simp] theorem State.advance_rr (s : State) (i : Slot) :
    (s.advance i).rr = s.rr.set i ((s.rr[i] + 1) % s.sensM[i]) := rfl
@[simp] theorem State.advance_delim (s : State) (i : Slot) : (s.advance i).delim = s.delim := rfl
@[simp] theorem State.advance_wire (s : State) (i : Slot) : (s.advance i).wire = s.wire := rfl
@[simp] theorem State.advance_responses (s : State) (i : Slot) : (s.advance i).responses = s.responses := rfl
@[simp] theorem State.advance_inputs (s : State) (i : Slot) : (s.advance i).inputs = s.inputs := rfl
@[simp] theorem State.advance_answers (s : State) (i : Slot) : (s.advance i).answers = s.answers := rfl
@[simp] theorem State.advance_draws (s : State) (i : Slot) : (s.advance i).draws = s.draws := rfl

/-! ### `afterReset` -/

@[simp] theorem State.afterReset_mode (s : State) : (s.afterReset).mode = State.reset.mode := rfl
@[simp] theorem State.afterReset_fstate (s : State) : (s.afterReset).fstate = State.reset.fstate := rfl
@[simp] theorem State.afterReset_crc (s : State) : (s.afterReset).crc = State.reset.crc := rfl
@[simp] theorem State.afterReset_now (s : State) : (s.afterReset).now = State.reset.now := rfl
@[simp] theorem State.afterReset_last (s : State) : (s.afterReset).last = State.reset.last := rfl
@[simp] theorem State.afterReset_interval (s : State) : (s.afterReset).interval = State.reset.interval := rfl
@[simp] theorem State.afterReset_groupEn (s : State) : (s.afterReset).groupEn = State.reset.groupEn := rfl
@[simp] theorem State.afterReset_healthCur (s : State) : (s.afterReset).healthCur = State.reset.healthCur := rfl
@[simp] theorem State.afterReset_healthPrev (s : State) : (s.afterReset).healthPrev = State.reset.healthPrev := rfl
@[simp] theorem State.afterReset_sensId (s : State) : (s.afterReset).sensId = State.reset.sensId := rfl
@[simp] theorem State.afterReset_sensM (s : State) : (s.afterReset).sensM = State.reset.sensM := rfl
@[simp] theorem State.afterReset_rr (s : State) : (s.afterReset).rr = State.reset.rr := rfl
@[simp] theorem State.afterReset_delim (s : State) : (s.afterReset).delim = State.reset.delim := rfl
@[simp] theorem State.afterReset_wire (s : State) : (s.afterReset).wire = s.wire := rfl
@[simp] theorem State.afterReset_responses (s : State) : (s.afterReset).responses = s.responses := rfl
@[simp] theorem State.afterReset_inputs (s : State) : (s.afterReset).inputs = s.inputs := rfl
@[simp] theorem State.afterReset_answers (s : State) : (s.afterReset).answers = s.answers := rfl
@[simp] theorem State.afterReset_draws (s : State) : (s.afterReset).draws = s.draws := rfl

end Sys2Proof.Machine
end

