-- ==== Sys2Proof/Laws/Transport.lean ====
section
/-! SUPPORT. What the emission primitives can do, once: a run of attempted bytes is accepted whole, or it stops at the
first refused byte (spec/40_framer.md R46 to R49). -/

namespace Sys2Proof.Machine

/-! ### The coming answers -/

theorem State.txReady_eq_readyAt (s : State) : s.txReady = s.readyAt 0 := by
  unfold State.txReady State.readyAt
  cases s.answers <;> simp

/-- Appending to WIRE, folding, answering or advancing NOW does not touch the coming answers. -/
theorem State.readyAt_congr {s t : State} (ha : t.answers = s.answers) (hd : t.draws = s.draws) (k : Nat) :
    t.readyAt k = s.readyAt k := by
  simp [State.readyAt, ha, hd]

theorem State.readyAt_shift {s t : State} {n : Nat} (ha : t.answers = s.answers.drop n) (hd : t.draws = s.draws + n)
    (k : Nat) : t.readyAt k = s.readyAt (n + k) := by
  simp [State.readyAt, ha, hd, Nat.add_assoc]

theorem State.acceptsNext_congr {s t : State} (ha : t.answers = s.answers) (hd : t.draws = s.draws) {n : Nat}
    (h : s.acceptsNext n) : t.acceptsNext n := fun k hk => by
  rw [State.readyAt_congr ha hd]; exact h k hk

theorem State.acceptsNext_mono {s : State} {m n : Nat} (hmn : m ≤ n) (h : s.acceptsNext n) : s.acceptsNext m :=
  fun k hk => h k (by omega)

theorem State.acceptsNext_shift {s t : State} {m n : Nat} (ha : t.answers = s.answers.drop m)
    (hd : t.draws = s.draws + m) (h : s.acceptsNext (m + n)) : t.acceptsNext n := fun k hk => by
  rw [State.readyAt_shift ha hd]; exact h _ (by omega)

theorem State.refusesAt_shift {s t : State} {m k : Nat} (ha : t.answers = s.answers.drop m)
    (hd : t.draws = s.draws + m) (h : s.refusesAt (m + k)) : t.refusesAt k := by
  refine ⟨State.acceptsNext_shift ha hd h.1, ?_⟩
  rw [State.readyAt_shift ha hd]; exact h.2

/-! ### A run of attempted bytes -/

/-- Attempt the bytes of `out` one after the other while the frame is open. -/
def State.transmit (s : State) (out : List Byte) : State := out.foldl State.emitIfOpen s

@[simp] theorem State.transmit_nil (s : State) : s.transmit [] = s := rfl

theorem State.transmit_cons (s : State) (b : Byte) (out : List Byte) :
    s.transmit (b :: out) = (s.emitIfOpen b).transmit out := rfl

theorem State.transmit_append (s : State) (out more : List Byte) :
    s.transmit (out ++ more) = (s.transmit out).transmit more := List.foldl_append ..

/-- The emissions leave DELIM alone. -/
@[simp] theorem State.emitIfOpen_delim (s : State) (b : Byte) : (s.emitIfOpen b).delim = s.delim := by
  unfold State.emitIfOpen State.emit
  repeat' split
  all_goals rfl

theorem State.emitIfOpen_of_ne {s : State} (h : s.fstate ≠ .opened) (b : Byte) : s.emitIfOpen b = s := by
  unfold State.emitIfOpen
  split <;> simp_all

theorem State.transmit_of_ne {s : State} (h : s.fstate ≠ .opened) (out : List Byte) : s.transmit out = s := by
  induction out with
  | nil => rfl
  | cons b out ih => rw [State.transmit_cons, State.emitIfOpen_of_ne h, ih]

theorem State.emitIfOpen_accepted {s : State} (ho : s.fstate = .opened) (hr : s.readyAt 0 = true) (b : Byte) :
    s.emitIfOpen b =
      { s with wire := s.wire ++ [b], answers := s.answers.drop 1, draws := s.draws + 1 } := by
  simp [State.emitIfOpen, State.emit, ho, State.txReady_eq_readyAt, hr, State.draw]

theorem State.emitIfOpen_refused {s : State} (ho : s.fstate = .opened) (hr : s.readyAt 0 = false) (b : Byte) :
    s.emitIfOpen b =
      { s with fstate := .abandoned, answers := s.answers.drop 1, draws := s.draws + 1 } := by
  simp [State.emitIfOpen, State.emit, ho, State.txReady_eq_readyAt, hr, State.draw]

/-- Every byte accepted: all of `out` is on WIRE. -/
theorem State.transmit_accepted {s : State} {out : List Byte} (ho : s.fstate = .opened)
    (ha : s.acceptsNext out.length) :
    s.transmit out =
      { s with
        wire := s.wire ++ out, answers := s.answers.drop out.length, draws := s.draws + out.length } := by
  induction out generalizing s with
  | nil => simp
  | cons b out ih =>
    rw [State.transmit_cons, State.emitIfOpen_accepted ho (ha 0 (by simp)),
      ih (by exact ho) (State.acceptsNext_shift (s := s) (m := 1) rfl rfl (by rwa [Nat.add_comm]))]
    simp [Nat.add_comm, Nat.add_assoc]

/-- Byte number `k` refused: the bytes before it are on WIRE and the frame is abandoned. -/
theorem State.transmit_refused {s : State} {out : List Byte} {k : Nat} (ho : s.fstate = .opened)
    (hk : k < out.length) (hr : s.refusesAt k) :
    s.transmit out =
      { s with
        fstate := .abandoned, wire := s.wire ++ out.take k, answers := s.answers.drop (k + 1),
        draws := s.draws + (k + 1) } := by
  induction out generalizing s k with
  | nil => simp at hk
  | cons b out ih =>
    rw [State.transmit_cons]
    cases k with
    | zero =>
      rw [State.emitIfOpen_refused ho hr.2, State.transmit_of_ne (by simp)]
      simp
    | succ k =>
      rw [State.emitIfOpen_accepted ho (hr.1 0 (by omega)),
        ih (by exact ho) (by simpa using hk)
          (State.refusesAt_shift (s := s) (m := 1) rfl rfl (by rwa [Nat.add_comm]))]
      simp [Nat.add_comm, Nat.add_left_comm]

/-- A run of `n` attempts is either accepted whole or refused at some byte. -/
theorem State.accepts_or_refuses (s : State) (n : Nat) : s.acceptsNext n ∨ ∃ k < n, s.refusesAt k := by
  induction n with
  | zero => exact .inl fun k hk => by omega
  | succ n ih =>
    rcases ih with h | ⟨k, hk, h⟩
    · cases hr : s.readyAt n with
      | true =>
        refine .inl fun k hk => ?_
        rcases Nat.lt_succ_iff_lt_or_eq.mp hk with h' | rfl
        · exact h k h'
        · exact hr
      | false => exact .inr ⟨n, by omega, h, hr⟩
    · exact .inr ⟨k, by omega, h⟩

/-! ### Stuffing and folding -/

theorem reserved_iff (d : Word) (b : Byte) :
    reserved d b = true ↔ b = startByte d ∨ b = stopByte d ∨ b = escByte d := by
  simp [reserved, or_assoc]

theorem stuff_of_reserved {d : Word} {b : Byte} (h : reserved d b = true) :
    stuff d b = [escByte d, b ^^^ maskByte d] := if_pos ((reserved_iff d b).mp h)

theorem stuff_of_not_reserved {d : Word} {b : Byte} (h : reserved d b = false) : stuff d b = [b] :=
  if_neg fun h' => by simp [(reserved_iff d b).mpr h'] at h

/-- `stuff` gives one or two bytes. -/
theorem stuff_length (d : Word) (b : Byte) : 1 ≤ (stuff d b).length ∧ (stuff d b).length ≤ 2 := by
  cases h : reserved d b with
  | true => simp [stuff_of_reserved h]
  | false => simp [stuff_of_not_reserved h]

theorem State.emitStuffed_eq_transmit (s : State) (b : Byte) : s.emitStuffed b = s.transmit (stuff s.delim b) := by
  unfold State.emitStuffed
  cases h : reserved s.delim b with
  | true => simp [stuff_of_reserved h, State.transmit_cons]
  | false => simp [stuff_of_not_reserved h, State.transmit_cons]

@[simp] theorem stuffAll_nil (d : Word) : stuffAll d [] = [] := rfl

@[simp] theorem stuffAll_cons (d : Word) (b : Byte) (bs : List Byte) :
    stuffAll d (b :: bs) = stuff d b ++ stuffAll d bs := rfl

@[simp] theorem stuffAll_append (d : Word) (bs cs : List Byte) :
    stuffAll d (bs ++ cs) = stuffAll d bs ++ stuffAll d cs := List.flatMap_append ..

@[simp] theorem foldBytes_nil (c : Crc) : foldBytes c [] = c := rfl

@[simp] theorem foldBytes_cons (c : Crc) (b : Byte) (bs : List Byte) :
    foldBytes c (b :: bs) = foldBytes (hw.crc.fold c b) bs := rfl

@[simp] theorem foldBytes_append (c : Crc) (bs cs : List Byte) :
    foldBytes c (bs ++ cs) = foldBytes (foldBytes c bs) cs := List.foldl_append ..

/-! ### `send_byte` -/

theorem State.sendBytes_cons (s : State) (b : Byte) (bs : List Byte) :
    s.sendBytes (b :: bs) = (s.sendByte b).sendBytes bs := rfl

theorem State.sendByte_of_ne {s : State} (h : s.fstate ≠ .opened) (b : Byte) : s.sendByte b = s := by
  unfold State.sendByte
  split <;> simp_all

theorem State.sendBytes_of_ne {s : State} (h : s.fstate ≠ .opened) (bs : List Byte) : s.sendBytes bs = s := by
  induction bs with
  | nil => rfl
  | cons b bs ih => rw [State.sendBytes_cons, State.sendByte_of_ne h, ih]

theorem State.sendByte_opened {s : State} (h : s.fstate = .opened) (b : Byte) :
    s.sendByte b = { s.transmit (stuff s.delim b) with crc := hw.crc.fold s.crc b } := by
  simp [State.sendByte, h, State.emitStuffed_eq_transmit]

theorem State.sendByte_accepted {s : State} {b : Byte} (ho : s.fstate = .opened)
    (ha : s.acceptsNext (stuff s.delim b).length) :
    s.sendByte b =
      { s with
        crc := hw.crc.fold s.crc b, wire := s.wire ++ stuff s.delim b,
        answers := s.answers.drop (stuff s.delim b).length, draws := s.draws + (stuff s.delim b).length } := by
  rw [State.sendByte_opened ho, State.transmit_accepted ho ha]

theorem State.sendByte_refused {s : State} {b : Byte} {k : Nat} (ho : s.fstate = .opened)
    (hk : k < (stuff s.delim b).length) (hr : s.refusesAt k) :
    s.sendByte b =
      { s with
        crc := hw.crc.fold s.crc b, fstate := .abandoned, wire := s.wire ++ (stuff s.delim b).take k,
        answers := s.answers.drop (k + 1), draws := s.draws + (k + 1) } := by
  rw [State.sendByte_opened ho, State.transmit_refused ho hk hr]

/-- Every byte accepted: the stuffed bytes are on WIRE and the originals are folded. -/
theorem State.sendBytes_accepted {s : State} {bs : List Byte} (ho : s.fstate = .opened)
    (ha : s.acceptsNext (stuffAll s.delim bs).length) :
    s.sendBytes bs =
      { s with
        crc := foldBytes s.crc bs, wire := s.wire ++ stuffAll s.delim bs,
        answers := s.answers.drop (stuffAll s.delim bs).length,
        draws := s.draws + (stuffAll s.delim bs).length } := by
  induction bs generalizing s with
  | nil => simp [State.sendBytes]
  | cons b bs ih =>
    simp only [stuffAll_cons, List.length_append] at ha
    rw [State.sendBytes_cons, State.sendByte_accepted ho (State.acceptsNext_mono (Nat.le_add_right ..) ha)]
    refine (ih ?_ ?_).trans ?_
    · exact ho
    · exact State.acceptsNext_shift (s := s) (m := (stuff s.delim b).length) rfl rfl ha
    · simp [Nat.add_assoc]

/-- Byte number `k` of the stuffed sequence refused: the bytes before it are on WIRE, the frame is abandoned, and the
bytes tried are folded. -/
theorem State.sendBytes_refused {s : State} {bs : List Byte} {k : Nat} (ho : s.fstate = .opened)
    (hk : k < (stuffAll s.delim bs).length) (hr : s.refusesAt k) :
    s.sendBytes bs =
      { s with
        crc := foldBytes s.crc (bytesTried s.delim bs k), fstate := .abandoned,
        wire := s.wire ++ (stuffAll s.delim bs).take k, answers := s.answers.drop (k + 1),
        draws := s.draws + (k + 1) } := by
  induction bs generalizing s k with
  | nil => simp at hk
  | cons b bs ih =>
    simp only [stuffAll_cons, List.length_append] at hk
    rw [State.sendBytes_cons]
    by_cases hb : k < (stuff s.delim b).length
    · rw [State.sendByte_refused ho hb hr, State.sendBytes_of_ne (by simp)]
      simp [bytesTried, hb, List.take_append_of_le_length (Nat.le_of_lt hb)]
    · obtain ⟨j, rfl⟩ := Nat.exists_eq_add_of_le (Nat.le_of_not_lt hb)
      rw [State.sendByte_accepted ho (State.acceptsNext_mono (Nat.le_add_right ..) hr.1)]
      refine (ih (k := j) ?_ ?_ ?_).trans ?_
      · exact ho
      · exact Nat.lt_of_add_lt_add_left hk
      · exact State.refusesAt_shift (s := s) (m := (stuff s.delim b).length) rfl rfl hr
      · simp [bytesTried, List.take_append, List.drop_drop, Nat.add_assoc]

end Sys2Proof.Machine
end

