-- ==== Sys2Proof/Laws/Exec.lean ====
section
/-! SUPPORT. What the shared operations of Machine/Ops.lean can do, said once each, for proofs that must not unfold
them: the mode checks, the emissions as a whole, the framer guards, register access, and the scheduler's choice. -/

namespace Sys2Proof.Machine

/-! ### Mode checks (spec/60_exceptions.md R94) -/

theorem inRun_run {s : State} (h : s.mode = .run) (body : State → State) : inRun s body = .next (body s) := by
  simp [inRun, h]

theorem inRun_config {s : State} (h : s.mode = .config) (body : State → State) :
    inRun s body = .next (s.respond .illegal 0) := by
  simp [inRun, h]

theorem inConfig_config {s : State} (h : s.mode = .config) (body : State → State) :
    inConfig s body = .next (body s) := by
  simp [inConfig, h]

theorem inConfig_run {s : State} (h : s.mode = .run) (body : State → State) :
    inConfig s body = .next (s.respond .illegal 0) := by
  simp [inConfig, h]

/-- All a RUN-only command can do. -/
theorem inRun_cases {s t : State} {body : State → State} (h : inRun s body = .next t) :
    (s.mode = .run ∧ t = body s) ∨ (s.mode = .config ∧ t = s.respond .illegal 0) := by
  cases hm : s.mode with
  | run => rw [inRun_run hm] at h; injection h with h; exact .inl ⟨rfl, h.symm⟩
  | config => rw [inRun_config hm] at h; injection h with h; exact .inr ⟨rfl, h.symm⟩

/-- All a CONFIG-only command can do. -/
theorem inConfig_cases {s t : State} {body : State → State} (h : inConfig s body = .next t) :
    (s.mode = .config ∧ t = body s) ∨ (s.mode = .run ∧ t = s.respond .illegal 0) := by
  cases hm : s.mode with
  | config => rw [inConfig_config hm] at h; injection h with h; exact .inl ⟨rfl, h.symm⟩
  | run => rw [inConfig_run hm] at h; injection h with h; exact .inr ⟨rfl, h.symm⟩

/-! ### Emissions as a whole -/

/-- `t` differs from `s` only as the emission primitives can make it differ: FSTATE, CRC, bytes appended to WIRE, and
the transport's answers consumed. -/
def State.Emits (s t : State) : Prop :=
  ∃ f c bs a d, t = { s with fstate := f, crc := c, wire := s.wire ++ bs, answers := a, draws := d }

theorem State.Emits.refl (s : State) : s.Emits s := ⟨s.fstate, s.crc, [], s.answers, s.draws, by simp⟩

theorem State.Emits.trans {s t u : State} (h : s.Emits t) (h' : t.Emits u) : s.Emits u := by
  obtain ⟨f, c, bs, a, d, rfl⟩ := h
  obtain ⟨f', c', bs', a', d', rfl⟩ := h'
  exact ⟨f', c', bs ++ bs', a', d', by simp⟩

theorem State.emits_emit (s : State) (b : Byte) : s.Emits (s.emit b) := by
  unfold State.emit
  split
  · exact ⟨s.fstate, s.crc, [b], s.answers.tail, s.draws + 1, rfl⟩
  · exact ⟨.abandoned, s.crc, [], s.answers.tail, s.draws + 1, by simp [State.draw]⟩

theorem State.emits_emitIfOpen (s : State) (b : Byte) : s.Emits (s.emitIfOpen b) := by
  unfold State.emitIfOpen
  split
  · exact s.emits_emit b
  · exact .refl s
  · exact .refl s

theorem State.emits_emitStuffed (s : State) (b : Byte) : s.Emits (s.emitStuffed b) := by
  unfold State.emitStuffed
  split
  · exact (s.emits_emitIfOpen _).trans (State.emits_emitIfOpen _ _)
  · exact s.emits_emitIfOpen b

theorem State.emits_sendByte (s : State) (b : Byte) : s.Emits (s.sendByte b) := by
  unfold State.sendByte
  split
  · obtain ⟨f, c, bs, a, d, h⟩ := s.emits_emitStuffed b
    exact ⟨f, hw.crc.fold s.crc b, bs, a, d, by rw [h]⟩
  · exact .refl s
  · exact .refl s

theorem State.emits_sendBytes (s : State) (bs : List Byte) : s.Emits (s.sendBytes bs) := by
  induction bs generalizing s with
  | nil => exact .refl s
  | cons b bs ih => exact (s.emits_sendByte b).trans (ih _)

theorem State.emits_sendTrailer (s : State) : s.Emits s.sendTrailer :=
  ((s.emits_emitStuffed _).trans (State.emits_emitStuffed _ _)).trans (State.emits_emitIfOpen _ _)

/-- The number of bytes appended, when it is known what was appended. -/
theorem sentCount_append {s t : State} {bs : List Byte} (h : t.wire = s.wire ++ bs) :
    sentCount s t = BitVec.ofNat 32 bs.length := by
  simp [sentCount, h]

/-- START accepted (spec/40_framer.md R50). -/
theorem State.beginFrame_accepted {s : State} (hr : s.readyAt 0 = true) :
    s.beginFrame =
      { s with
        crc := hw.crc.init, fstate := .opened, wire := s.wire ++ [startByte s.delim],
        answers := s.answers.drop 1, draws := s.draws + 1 } := by
  have hr' : State.txReady { s with crc := hw.crc.init, fstate := .opened } = true :=
    (State.txReady_eq_readyAt _).trans hr
  simp [State.beginFrame, State.emit, hr', State.draw]

/-- START refused (spec/40_framer.md R50). -/
theorem State.beginFrame_refused {s : State} (hr : s.readyAt 0 = false) :
    s.beginFrame =
      { s with
        crc := hw.crc.init, fstate := .abandoned, answers := s.answers.drop 1, draws := s.draws + 1 } := by
  have hr' : State.txReady { s with crc := hw.crc.init, fstate := .opened } = false :=
    (State.txReady_eq_readyAt _).trans hr
  simp [State.beginFrame, State.emit, hr', State.draw]

/-! ### Framer guards (spec/60_exceptions.md R87, R88) -/

theorem State.inFrame_idle {s : State} (h : s.fstate = .idle) (body : State → State) :
    s.inFrame body = s.respond .seqErr 0 := by
  simp [State.inFrame, h]

theorem State.inFrame_abandoned {s : State} (h : s.fstate = .abandoned) (body : State → State) :
    s.inFrame body = s.respond .abandoned 0 := by
  simp [State.inFrame, h]

theorem State.inFrame_opened {s : State} (h : s.fstate = .opened) (body : State → State) :
    s.inFrame body = s.framed body := by
  simp [State.inFrame, h]

/-- The meaning of a data command is the sending of its data bytes in an open frame. -/
theorem exec_dataBytes {i : Instr} {bs : List Byte} (h : dataBytes i = some bs) (s : State) :
    exec i s = inRun s fun s => s.inFrame fun s => s.sendBytes bs := by
  cases i <;> simp_all [dataBytes] <;> subst h <;> rfl

/-- All a data command can do in RUN mode. -/
theorem State.inFrame_cases (s : State) (body : State → State) :
    (s.fstate = .idle ∧ s.inFrame body = s.respond .seqErr 0) ∨
    (s.fstate = .abandoned ∧ s.inFrame body = s.respond .abandoned 0) ∨
    (s.fstate = .opened ∧ s.inFrame body = s.framed body) := by
  cases h : s.fstate with
  | idle => exact .inl ⟨rfl, s.inFrame_idle h body⟩
  | abandoned => exact .inr (.inl ⟨rfl, s.inFrame_abandoned h body⟩)
  | opened => exact .inr (.inr ⟨rfl, s.inFrame_opened h body⟩)

/-- FEND's emissions attempt the stuffed trailer and STOP. -/
theorem State.sendTrailer_eq_transmit (s : State) : s.sendTrailer = s.transmit (endBytes s.delim s.crc) := by
  have hd : ∀ b, (s.emitStuffed b).delim = s.delim := fun b => by
    obtain ⟨f, c, bs, a, d, h⟩ := s.emits_emitStuffed b
    rw [h]
  rw [State.sendTrailer, crcBytes_eq]
  simp only [List.foldl_cons, List.foldl_nil, State.emitStuffed_eq_transmit, endBytes, trailerBytes, stuffAll_cons,
    stuffAll_nil, List.append_nil, State.transmit_append, State.transmit_cons, State.transmit_nil]
  simp only [← State.emitStuffed_eq_transmit, hd]

/-! ### Register access (spec/20_memory.md R28) -/

/-- All a register write can do. -/
theorem State.writeReg_cases {s t : State} {v : Word} {r : Reg} (h : s.writeReg v r = some t) :
    (r = .delim ∧ t = { s with delim := v }) ∨
    (r = .groupEn ∧ t = { s with groupEn := v.extractLsb' 0 11 }) ∨
    (∃ g, r = .interval g ∧ t = { s with interval := s.interval.set g v }) ∨
    ∃ i, r = .sensor i ∧
      t = { s with sensId := s.sensId.set i (v.extractLsb' 0 8), sensM := s.sensM.set i (v.extractLsb' 8 8) } := by
  cases r <;> simp_all [State.writeReg]

/-- The register map names a register exactly at the implemented indices. -/
theorem regOfIndex_isSome (a : Byte) : (regOfIndex a).isSome = implementedIndex a := by
  revert a; decide

/-- The named register is a RW one exactly at the writable indices. -/
theorem writeReg_isSome (s : State) (v : Word) (a : Byte) :
    ((regOfIndex a).bind (s.writeReg v)).isSome = writableIndex a := by
  have h : ∀ r, (s.writeReg v r).isSome =
      match r with
      | .delim | .groupEn | .interval _ | .sensor _ => true
      | .status | .now | .healthCur | .healthPrev | .last _ => false := fun r => by cases r <;> rfl
  have h' : ∀ a : Byte, (regOfIndex a).any (fun r => match r with
      | .delim | .groupEn | .interval _ | .sensor _ => true
      | .status | .now | .healthCur | .healthPrev | .last _ => false) = writableIndex a := by decide
  rw [← h' a]
  cases regOfIndex a with
  | none => rfl
  | some r => exact h r

/-- Row `i` of the FieldSpec table exists exactly for `i` below NFIELD. -/
theorem fieldRow_isSome (i : Byte) : (fieldRow i).isSome = decide (i.toNat < Config.nField) := by
  rw [fieldRow, Bool.eq_iff_iff, isSome_getElem?, decide_eq_true_iff]

/-! ### Each command as its shared operations -/

theorem exec_fbegin (s : State) : exec .fbegin s = inRun s fun s => s.framed State.beginFrame := rfl

theorem exec_fend (s : State) : exec .fend s = inRun s State.closeFrame := rfl

theorem exec_pack {i : Byte} {f : FieldSpec} (h : fieldRow i = some f) (v : Word) (s : State) :
    exec (.pack i v) s = .next (s.respond .ok (packField f (asS32 v))) := by
  simp [exec, execPack, h]

theorem exec_pack_illegal {i : Byte} (h : fieldRow i = none) (v : Word) (s : State) :
    exec (.pack i v) s = .next (s.respond .illegal 0) := by
  simp [exec, execPack, h]

theorem exec_unpack {i : Byte} {f : FieldSpec} (h : fieldRow i = some f) (w : Word) (s : State) :
    exec (.unpack i w) s = .next (s.respond .ok (unpackField f w)) := by
  simp [exec, execUnpack, h]

theorem exec_unpack_illegal {i : Byte} (h : fieldRow i = none) (w : Word) (s : State) :
    exec (.unpack i w) s = .next (s.respond .illegal 0) := by
  simp [exec, execUnpack, h]

theorem exec_dsplit {k : Byte} (h : k.toNat ≤ 4) (v : Word) (s : State) :
    exec (.dsplit k v) s = .next (s.respond .ok (splitDecimal k.toNat (asS32 v))) := by
  simp [exec, execDsplit, Nat.not_lt.mpr h]

theorem exec_dsplit_illegal {k : Byte} (h : 4 < k.toNat) (v : Word) (s : State) :
    exec (.dsplit k v) s = .next (s.respond .illegal 0) := by
  simp [exec, execDsplit, h]

theorem exec_tick (c : Bool) (s : State) : exec (.tick c) s = inRun s fun s => s.tickOutcome c := rfl

theorem exec_sethm (m : Word) (s : State) :
    exec (.sethm m) s = inRun s fun s => State.respond { s with healthCur := m } .ok 0 := rfl

theorem exec_poll (b : Byte) (s : State) : exec (.poll b) s = inRun s fun s => s.answerPoll b := rfl

theorem exec_cfgwr (a : Byte) (v : Word) (s : State) :
    exec (.cfgwr a v) s = inConfig s fun s => s.configure a v := rfl

theorem exec_cfgrd {a : Byte} {r : Reg} (h : regOfIndex a = some r) (s : State) :
    exec (.cfgrd a) s = .next (s.respond .ok (s.readReg r)) := by
  simp [exec, execCfgrd, h]

theorem exec_cfgrd_illegal {a : Byte} (h : regOfIndex a = none) (s : State) :
    exec (.cfgrd a) s = .next (s.respond .illegal 0) := by
  simp [exec, execCfgrd, h]

theorem exec_init (s : State) : exec .init s = inConfig s State.enterRun := rfl

/-! ### What a command can do -/

theorem State.emits_beginFrame (s : State) : s.Emits s.beginFrame :=
  State.Emits.trans (t := { s with crc := hw.crc.init, fstate := .opened })
    ⟨.opened, hw.crc.init, [], s.answers, s.draws, by simp⟩ (State.emits_emit _ _)

/-- The forms the next state of a command can take: every proof about all commands splits on these. -/
inductive Effect : Instr → State → State → Prop where
  /-- Only the response: a status in place of a trap, a pure answer, a read. -/
  | answer (i : Instr) (s : State) (st : Status) (d : Word) : Effect i s (s.respond st d)
  /-- Emissions of a framer command in RUN mode. -/
  | frame {i : Instr} {s u : State} (hi : isFramer i) (hm : s.mode = .run) (hu : s.Emits u) (st : Status) (d : Word) :
    Effect i s (u.respond st d)
  /-- A tick that selects no group. -/
  | pass {s : State} (hm : s.mode = .run) (c : Bool) (st : Status) : Effect (.tick c) s (s.passTick.respond st 0)
  /-- A tick that selects the due group. -/
  | select {s : State} {g : Group} (hm : s.mode = .run) (hg : s.due s.now = some g) :
    Effect (.tick false) s ((s.passTick.markSent s.now g).respond .ok (BitVec.ofNat 32 g.val))
  /-- A new health mask. -/
  | health {s : State} (hm : s.mode = .run) (m : Word) :
    Effect (.sethm m) s (State.respond { s with healthCur := m } .ok 0)
  /-- A poll that a slot answers. -/
  | poll {s : State} {b : Byte} {i : Slot} (hm : s.mode = .run) (hi : s.pollSlot b = some i) :
    Effect (.poll b) s ((s.advance i).respond .ok (pollData i s.rr[i]))
  /-- A configuration write. -/
  | write {s u : State} {a : Byte} {v : Word} {r : Reg} (hm : s.mode = .config) (hr : regOfIndex a = some r)
    (hu : s.writeReg v r = some u) : Effect (.cfgwr a v) s (u.respond .ok 0)
  /-- The entry of RUN mode. -/
  | run {s : State} (hm : s.mode = .config) (hd : delimValid s.delim = true) :
    Effect .init s (State.respond { s with mode := .run } .ok 0)

theorem State.due_passTick (s : State) (t : Time) : s.passTick.due t = s.due t := rfl

/-- Every next state of a command is of one of these forms. -/
theorem exec_effect {i : Instr} {s t : State} (h : exec i s = .next t) : Effect i s t := by
  have hdata : ∀ bs, dataBytes i = some bs → Effect i s t := fun bs hbs => by
    rw [exec_dataBytes hbs] at h
    rcases inRun_cases h with ⟨hm, rfl⟩ | ⟨_, rfl⟩
    · rcases s.inFrame_cases (fun s => s.sendBytes bs) with ⟨_, h'⟩ | ⟨_, h'⟩ | ⟨_, h'⟩ <;> rw [h']
      · exact .answer ..
      · exact .answer ..
      · exact .frame (.inr (.inr ⟨bs, hbs⟩)) hm (s.emits_sendBytes bs) _ _
    · exact .answer ..
  cases i with
  | fbyte b => exact hdata _ rfl
  | fw16 hdr id v => exact hdata _ rfl
  | fw32 hdr id v => exact hdata _ rfl
  | fbegin =>
    rw [exec_fbegin] at h
    rcases inRun_cases h with ⟨hm, rfl⟩ | ⟨_, rfl⟩
    · exact .frame (.inl rfl) hm s.emits_beginFrame _ _
    · exact .answer ..
  | fend =>
    rw [exec_fend] at h
    have hend : s.mode = .run → Effect .fend s s.endFrame := fun hm => by
      obtain ⟨f, c, bs, a, d, he⟩ := s.emits_sendTrailer
      have : s.endFrame = State.respond { s.sendTrailer with fstate := .idle } (frameStatus s.sendTrailer.fstate)
          (sentCount s s.sendTrailer) := rfl
      rw [this]
      exact .frame (.inr (.inl rfl)) hm ⟨.idle, c, bs, a, d, by rw [he]⟩ _ _
    rcases inRun_cases h with ⟨hm, rfl⟩ | ⟨_, rfl⟩
    · unfold State.closeFrame
      split
      · exact .answer ..
      · exact hend hm
      · exact hend hm
    · exact .answer ..
  | pack i v =>
    cases hf : fieldRow i with
    | none => rw [exec_pack_illegal hf] at h; injection h with h; subst h; exact .answer ..
    | some f => rw [exec_pack hf] at h; injection h with h; subst h; exact .answer ..
  | unpack i v =>
    cases hf : fieldRow i with
    | none => rw [exec_unpack_illegal hf] at h; injection h with h; subst h; exact .answer ..
    | some f => rw [exec_unpack hf] at h; injection h with h; subst h; exact .answer ..
  | dsplit k v =>
    rcases Nat.lt_or_ge 4 k.toNat with hk | hk
    · rw [exec_dsplit_illegal hk] at h; injection h with h; subst h; exact .answer ..
    · rw [exec_dsplit hk] at h; injection h with h; subst h; exact .answer ..
  | tick c =>
    rw [exec_tick] at h
    rcases inRun_cases h with ⟨hm, rfl⟩ | ⟨_, rfl⟩
    · unfold State.tickOutcome
      split
      · exact .pass hm ..
      · split
        · exact .pass hm ..
        · rename_i hc
          rw [Bool.not_eq_true] at hc
          subst hc
          unfold State.decideGroup
          split
          · exact .pass hm ..
          · rename_i hg
            exact .select hm hg
    · exact .answer ..
  | sethm m =>
    rw [exec_sethm] at h
    rcases inRun_cases h with ⟨hm, rfl⟩ | ⟨_, rfl⟩
    · exact .health hm m
    · exact .answer ..
  | poll b =>
    rw [exec_poll] at h
    rcases inRun_cases h with ⟨hm, rfl⟩ | ⟨_, rfl⟩
    · unfold State.answerPoll
      split
      · exact .answer ..
      · rename_i hi
        exact .poll hm hi
    · exact .answer ..
  | cfgwr a v =>
    rw [exec_cfgwr] at h
    rcases inConfig_cases h with ⟨hm, rfl⟩ | ⟨_, rfl⟩
    · unfold State.configure
      split
      · exact .answer ..
      · rename_i hu
        obtain ⟨r, hr, hu⟩ := Option.bind_eq_some_iff.mp hu
        exact .write hm hr hu
    · exact .answer ..
  | cfgrd a =>
    cases hr : regOfIndex a with
    | none => rw [exec_cfgrd_illegal hr] at h; injection h with h; subst h; exact .answer ..
    | some r => rw [exec_cfgrd hr] at h; injection h with h; subst h; exact .answer ..
  | init =>
    rw [exec_init] at h
    rcases inConfig_cases h with ⟨hm, rfl⟩ | ⟨_, rfl⟩
    · unfold State.enterRun
      split
      · rename_i hd
        exact .run hm hd
      · exact .answer ..
    · exact .answer ..

/-- All a step can do: nothing, a reset, a command, or the answer to an undefined opcode. -/
theorem step_cases {s t : State} (h : step s = .next t) :
    (s.inputs = [] ∧ t = s) ∨
    (∃ rest, s.inputs = .reset :: rest ∧ t = State.afterReset { s with inputs := rest }) ∨
    (∃ w rest i, s.inputs = .command w :: rest ∧ decode w = .ok i ∧ exec i { s with inputs := rest } = .next t) ∨
    ∃ w rest e, s.inputs = .command w :: rest ∧ decode w = .error e ∧
      t = State.respond { s with inputs := rest } .illegal 0 := by
  unfold step at h
  split at h
  · injection h with h; exact .inl ⟨‹_›, h.symm⟩
  · injection h with h; exact .inr (.inl ⟨_, ‹_›, h.symm⟩)
  · split at h
    · exact .inr (.inr (.inl ⟨_, _, _, ‹_›, ‹_›, h⟩))
    · injection h with h; exact .inr (.inr (.inr ⟨_, _, _, ‹_›, ‹_›, h.symm⟩))

end Sys2Proof.Machine
end

