-- ==== Sys2Proof/Laws/PerInstr.lean ====
section
/-! SUPPORT. Per-instruction families: the word of every command has, under the mask of spec/opcode_table.json, the
match of its row. -/

namespace Sys2Proof.Laws

/-- The `match` of a command's row in spec/opcode_table.json; every row's `mask` is 0xFF00000000000000. -/
def tableMatch : Instr → CmdWord
  | .fbegin => 0x0100000000000000
  | .fbyte _ => 0x0200000000000000
  | .fw16 _ _ _ => 0x0300000000000000
  | .fw32 _ _ _ => 0x0400000000000000
  | .fend => 0x0500000000000000
  | .pack _ _ => 0x1000000000000000
  | .unpack _ _ => 0x1100000000000000
  | .dsplit _ _ => 0x1200000000000000
  | .tick _ => 0x2000000000000000
  | .sethm _ => 0x2100000000000000
  | .poll _ => 0x2200000000000000
  | .cfgwr _ _ => 0x3000000000000000
  | .cfgrd _ => 0x3100000000000000
  | .init => 0x3200000000000000

/-- Under the row's mask, an assembled word is its opcode. -/
theorem assemble_and_mask (o a : Byte) (b : Half) (c : Word) :
    assemble o a b c &&& 0xFF00000000000000 = assemble o 0 0 0 := by
  rw [show (0xFF00000000000000 : CmdWord) = assemble 0xFF 0 0 0 from rfl, assemble_and]
  rw [show (0xFF : Byte) = BitVec.allOnes 8 from rfl, BitVec.and_allOnes]
  simp

/-- The encoding of `i` matches the row of `i`. -/
def EncodeMatch.Statement (i : Instr) : Prop := encode i &&& 0xFF00000000000000 = tableMatch i

theorem EncodeMatch.fbegin : EncodeMatch.Statement .fbegin := assemble_and_mask ..

theorem EncodeMatch.fbyte (b : Byte) : EncodeMatch.Statement (.fbyte b) := assemble_and_mask ..

theorem EncodeMatch.fw16 (hdr : Byte) (id value : Half) : EncodeMatch.Statement (.fw16 hdr id value) :=
  assemble_and_mask ..

theorem EncodeMatch.fw32 (hdr : Byte) (id : Half) (value : Word) : EncodeMatch.Statement (.fw32 hdr id value) :=
  assemble_and_mask ..

theorem EncodeMatch.fend : EncodeMatch.Statement .fend := assemble_and_mask ..

theorem EncodeMatch.pack (i : Byte) (value : Word) : EncodeMatch.Statement (.pack i value) := assemble_and_mask ..

theorem EncodeMatch.unpack (i : Byte) (word : Word) : EncodeMatch.Statement (.unpack i word) := assemble_and_mask ..

theorem EncodeMatch.dsplit (k : Byte) (value : Word) : EncodeMatch.Statement (.dsplit k value) :=
  assemble_and_mask ..

theorem EncodeMatch.tick (chunkPending : Bool) : EncodeMatch.Statement (.tick chunkPending) := assemble_and_mask ..

theorem EncodeMatch.sethm (mask : Word) : EncodeMatch.Statement (.sethm mask) := assemble_and_mask ..

theorem EncodeMatch.poll (b : Byte) : EncodeMatch.Statement (.poll b) := assemble_and_mask ..

theorem EncodeMatch.cfgwr (reg : Byte) (value : Word) : EncodeMatch.Statement (.cfgwr reg value) :=
  assemble_and_mask ..

theorem EncodeMatch.cfgrd (reg : Byte) : EncodeMatch.Statement (.cfgrd reg) := assemble_and_mask ..

theorem EncodeMatch.init : EncodeMatch.Statement .init := assemble_and_mask ..

end Sys2Proof.Laws
end

