-- ==== Sys2Proof/Laws/Scheduler.lean ====
section
/-! SUPPORT. What the scheduler's shared operations compute, in the terms of the rules (spec/42_scheduler.md R67 to
R70, R75, R76): elapsed times, eligibility, the selected group, the slot that answers a poll. -/

namespace Sys2Proof.Machine

/-! ### Time and eligibility -/

theorem State.elapsed_toNat (s : State) (t : Time) (g : Group) : (s.elapsed t g).toNat = s.elapsedTicks t g := by
  simp only [State.elapsed, State.elapsedTicks, BitVec.toNat_sub]
  exact congrArg (· % 2 ^ 32) (Nat.add_comm ..)

theorem State.eligible_iff (s : State) (t : Time) (g : Group) : s.eligible t g = true ↔ s.IsEligible t g := by
  simp [State.eligible, State.IsEligible, State.enabled, BitVec.le_def, State.elapsed_toNat]

theorem State.overrun_toNat {s : State} {t : Time} {g : Group} (h : s.IsEligible t g) :
    (s.overrun t g).toNat = s.overrunTicks t g := by
  have hle : s.interval[g] ≤ s.elapsed t g := by
    rw [BitVec.le_def, State.elapsed_toNat]; exact h.2
  rw [State.overrun, BitVec.toNat_sub_of_le hle, State.elapsed_toNat]
  rfl

theorem State.triggered_iff (s : State) : s.triggered = true ↔ s.HealthTriggered := by
  simp [State.triggered, State.HealthTriggered, State.enabled]

/-! ### Selection -/

/-- Every group stands in PRIO. -/
theorem mem_prio (g : Group) : g ∈ hw.prio := by
  revert g; decide

/-- No two groups stand at the same place of PRIO. -/
theorem prioRank_injective : Function.Injective prioRank := by
  intro g h
  revert g h
  decide

/-- PRIO lists the groups by rising rank. -/
theorem prio_sorted : hw.prio.Pairwise (fun g h => prioRank g < prioRank h) := by decide

theorem State.mem_eligibleGroups (s : State) (t : Time) (g : Group) :
    g ∈ s.eligibleGroups t ↔ s.IsEligible t g := by
  simp [State.eligibleGroups, mem_prio, State.eligible_iff]

theorem le_foldl_max {α : Type} (f : α → Nat) (l : List α) (m : Nat) : m ≤ l.foldl (fun m a => max m (f a)) m := by
  induction l generalizing m with
  | nil => exact Nat.le_refl m
  | cons a l ih => exact Nat.le_trans (Nat.le_max_left ..) (ih _)

theorem foldl_max_ge {α : Type} (f : α → Nat) {l : List α} {a : α} (h : a ∈ l) (m : Nat) :
    f a ≤ l.foldl (fun m a => max m (f a)) m := by
  induction l generalizing m with
  | nil => simp at h
  | cons b l ih =>
    rcases List.mem_cons.mp h with rfl | h
    · exact Nat.le_trans (Nat.le_max_right ..) (le_foldl_max f l _)
    · exact ih h _

theorem foldl_max_attained {α : Type} (f : α → Nat) (l : List α) (m : Nat) :
    l.foldl (fun m a => max m (f a)) m = m ∨ ∃ a ∈ l, l.foldl (fun m a => max m (f a)) m = f a := by
  induction l generalizing m with
  | nil => exact .inl rfl
  | cons b l ih =>
    rcases ih (max m (f b)) with h | ⟨a, ha, h⟩
    · rcases Nat.le_total (f b) m with hm | hm
      · exact .inl (by simpa [Nat.max_eq_left hm] using h)
      · exact .inr ⟨b, by simp, by simpa [Nat.max_eq_right hm] using h⟩
    · exact .inr ⟨a, by simp [ha], h⟩

/-- The largest overrun bounds every eligible group's. -/
theorem State.overrun_le_max {s : State} {t : Time} {g : Group} (h : s.IsEligible t g) :
    s.overrunTicks t g ≤ s.maxOverrun t (s.eligibleGroups t) := by
  rw [← State.overrun_toNat h]
  exact foldl_max_ge (fun g => (s.overrun t g).toNat) ((s.mem_eligibleGroups t g).mpr h) 0

/-- The largest overrun is an eligible group's. -/
theorem State.max_attained {s : State} {t : Time} {g : Group} (h : s.IsEligible t g) :
    ∃ h, s.IsEligible t h ∧ s.overrunTicks t h = s.maxOverrun t (s.eligibleGroups t) := by
  rcases foldl_max_attained (fun g => (s.overrun t g).toNat) (s.eligibleGroups t) 0 with h0 | ⟨a, ha, hm⟩
  · refine ⟨g, h, ?_⟩
    have := State.overrun_le_max h
    have h0' : s.maxOverrun t (s.eligibleGroups t) = 0 := h0
    omega
  · have ha' := (s.mem_eligibleGroups t a).mp ha
    refine ⟨a, ha', ?_⟩
    rw [← State.overrun_toNat ha']
    exact hm.symm

/-- Of two groups the rules of R69 both name there is only one. -/
theorem State.isSelected_unique {s : State} {t : Time} {g h : Group} (hg : s.IsSelected t g)
    (hh : s.IsSelected t h) : g = h := by
  have h1 := hg.2 h hh.1
  have h2 := hh.2 g hg.1
  exact prioRank_injective (by omega)

/-- What `select` names is what R69 says. -/
theorem State.select_sound {s : State} {t : Time} {g : Group} (h : s.select t = some g) : s.IsSelected t g := by
  rw [State.select, List.find?_eq_some_iff_append] at h
  obtain ⟨hg, before, after, hl, hb⟩ := h
  have hmem : ∀ a, a ∈ before ++ g :: after ↔ s.IsEligible t a := fun a => by rw [← hl, s.mem_eligibleGroups]
  have heg : s.IsEligible t g := (hmem g).mp (by simp)
  have hmax : s.overrunTicks t g = s.maxOverrun t (s.eligibleGroups t) := by
    rw [← State.overrun_toNat heg]; simpa using hg
  have hsorted : (before ++ g :: after).Pairwise (fun g h => prioRank g < prioRank h) := by
    rw [← hl]; exact prio_sorted.sublist List.filter_sublist
  refine ⟨heg, fun a ha => ?_⟩
  have hle := State.overrun_le_max ha
  rcases Nat.lt_or_eq_of_le hle with hlt | heq
  · exact .inl (by omega)
  · refine .inr ⟨by omega, ?_⟩
    rcases List.mem_append.mp ((hmem a).mpr ha) with hin | hin
    · have := hb a hin
      rw [State.overrun_toNat ha] at this
      simp [heq] at this
    · rcases List.mem_cons.mp hin with rfl | hin
      · exact Nat.le_refl _
      · exact Nat.le_of_lt ((List.pairwise_cons.mp (List.pairwise_append.mp hsorted).2.1).1 a hin)

/-- `select` names no group exactly if none is eligible. -/
theorem State.select_eq_none_iff (s : State) (t : Time) : s.select t = none ↔ ∀ g, ¬s.IsEligible t g := by
  constructor
  · intro h g hg
    obtain ⟨a, ha, hm⟩ := State.max_attained hg
    rw [State.select, List.find?_eq_none] at h
    have := h a ((s.mem_eligibleGroups t a).mpr ha)
    rw [State.overrun_toNat ha] at this
    simp [hm] at this
  · intro h
    rw [State.select, List.find?_eq_none]
    intro a ha
    exact absurd ((s.mem_eligibleGroups t a).mp ha) (h a)

theorem State.select_eq_some_iff (s : State) (t : Time) (g : Group) : s.select t = some g ↔ s.IsSelected t g := by
  refine ⟨State.select_sound, fun h => ?_⟩
  cases hs : s.select t with
  | none => exact absurd h.1 ((s.select_eq_none_iff t).mp hs g)
  | some a => rw [State.isSelected_unique (State.select_sound hs) h]

/-- All `due` can name (spec/42_scheduler.md R70, R72). -/
theorem State.due_eq (s : State) (t : Time) :
    s.due t = if s.triggered then some 3 else s.select t := rfl

/-- The choice of a group reads nothing that a draw or the advance of NOW changes. -/
theorem State.due_congr {s u : State} (hg : u.groupEn = s.groupEn) (hl : u.last = s.last)
    (hi : u.interval = s.interval) (hc : u.healthCur = s.healthCur) (hp : u.healthPrev = s.healthPrev) (t : Time) :
    u.due t = s.due t := by
  have he : u.eligible t = s.eligible t := by
    funext g
    rw [Bool.eq_iff_iff, State.eligible_iff, State.eligible_iff]
    simp only [State.IsEligible, State.elapsedTicks, hg, hl, hi]
  have ho : u.overrun t = s.overrun t := by
    funext g; simp only [State.overrun, State.elapsed, hl, hi]
  simp [State.due, State.triggered, State.enabled, State.select, State.eligibleGroups, State.maxOverrun, he, ho, hg,
    hc, hp]

/-! ### Polls -/

theorem State.answersTo_iff (s : State) (b : Byte) (i : Slot) :
    s.answersTo b i = true ↔ s.sensM[i] ≠ 0 ∧ s.sensId[i] = b := by
  simp [State.answersTo]

/-- A search through all numbers below `n` in order names the lowest that passes. -/
theorem find?_finRange_eq_some_iff {n : Nat} (p : Fin n → Bool) (i : Fin n) :
    (List.finRange n).find? p = some i ↔ p i = true ∧ ∀ j, j < i → ¬p j = true := by
  rw [List.find?_eq_some_iff_getElem]
  refine and_congr_right fun _ => ⟨?_, fun h => ⟨i, by simp, by simp, fun j hj => ?_⟩⟩
  · rintro ⟨k, hk, rfl, h⟩ j hj
    simpa using h j.val (by simpa [Fin.lt_def] using hj)
  · simpa using h ⟨j, by omega⟩ hj

theorem State.pollSlot_eq_some_iff (s : State) (b : Byte) (i : Slot) :
    s.pollSlot b = some i ↔ s.IsPollSlot b i := by
  rw [State.pollSlot, State.IsPollSlot]
  simp only [← State.answersTo_iff]
  generalize s.answersTo b = p
  exact find?_finRange_eq_some_iff p i

theorem State.pollSlot_eq_none_iff (s : State) (b : Byte) :
    s.pollSlot b = none ↔ ∀ i : Slot, ¬(s.sensM[i] ≠ 0 ∧ s.sensId[i] = b) := by
  simp only [← State.answersTo_iff, State.pollSlot, List.find?_eq_none]
  exact ⟨fun h i => h i (List.mem_finRange i), fun h i _ => h i⟩

end Sys2Proof.Machine
end

