-- ==== Sys2Proof/Tests/Slice0.lean ====
section
/-! SUPPORT. Tests of single words and single steps, with expected values from spec/95_test_vectors.md and the worked
examples of the rules; and, for each statement with hypotheses, a state and operands that meet them. -/

namespace Sys2Proof.Tests

open Sys2Proof Sys2Proof.Machine

/-! ### Small states -/

/-- RUN mode after reset and INIT, with the transport's next answers. -/
def running (answers : List Bool) : State := { State.reset with mode := .run, answers := answers }

/-- An open frame with nothing in it yet. -/
def framing (answers : List Bool) : State :=
  { running answers with fstate := .opened, crc := 0xFFFF, wire := [0x7E] }

/-- The frame was abandoned. -/
def abandoned : State := { running [] with fstate := .abandoned, crc := 0xFFFF }

/-- Groups 3 and 6 at intervals 1000 and 2, time 2 (the worked example of spec/42_scheduler.md R72). -/
def scheduling (answers : List Bool) : State :=
  { running answers with
    groupEn := 0x048, interval := ((Vector.replicate 11 0).set 3 1000).set 6 2, now := 2 }

/-- Slots 0 and 2 hold the id 0x1B, slot 1 the id 0x34 (spec/95_test_vectors.md V20). -/
def polled (rr0 : Byte) : State :=
  { running [] with
    sensId := #v[0x1B, 0x34, 0x1B, 0x22], sensM := #v[3, 1, 2, 0], rr := #v[rr0, 0, 0, 0] }

/-- The last response of an outcome. -/
def answer : Result → Option (Status × Nat)
  | .next t => t.responses.getLast?.map fun r => (r.status, r.data.toNat)
  | .fault _ => none
  | .refused _ => none

/-- The bytes on WIRE after an outcome. -/
def wireOf : Result → Option (List Byte)
  | .next t => some t.wire
  | .fault _ => none
  | .refused _ => none

/-- A view of the state after an outcome. -/
def view {α : Type} (f : State → α) : Result → Option α
  | .next t => some (f t)
  | .fault _ => none
  | .refused _ => none

/-! ### WellFormed: each check refuses an ill-formed term (spec/30_encoding.md R38(c)) -/

theorem test_pack_row_22_is_ill_formed : Instr.wellFormed (.pack 22 0) = false := by decide

theorem test_unpack_row_22_is_ill_formed : Instr.wellFormed (.unpack 22 0) = false := by decide

theorem test_dsplit_5_digits_is_ill_formed : Instr.wellFormed (.dsplit 5 0) = false := by decide

theorem test_cfgwr_of_read_only_is_ill_formed :
    Instr.wellFormed (.cfgwr 0x03 0) = false ∧ Instr.wellFormed (.cfgwr 0x20 0) = false := by decide

theorem test_cfgwr_of_no_register_is_ill_formed :
    Instr.wellFormed (.cfgwr 0x1B 0) = false ∧ Instr.wellFormed (.cfgwr 0x34 0) = false := by decide

theorem test_cfgrd_of_no_register_is_ill_formed :
    Instr.wellFormed (.cfgrd 0x06) = false ∧ Instr.wellFormed (.cfgrd 0x1B) = false ∧
      Instr.wellFormed (.cfgrd 0x2B) = false ∧ Instr.wellFormed (.cfgrd 0x34) = false := by decide

theorem test_last_legal_operands_are_well_formed :
    Instr.wellFormed (.pack 21 0) = true ∧ Instr.wellFormed (.unpack 21 0) = true ∧
      Instr.wellFormed (.dsplit 4 0) = true ∧ Instr.wellFormed (.cfgwr 0x33 0) = true ∧
      Instr.wellFormed (.cfgrd 0x2A) = true := by decide

/-! ### Decoding: words written out in spec/30_encoding.md R41 and spec/95_test_vectors.md -/

theorem test_decode_fbegin : decode 0x0100000000000000 = .ok .fbegin := by decide

theorem test_decode_fbegin_ignores_operands : decode 0x01FFFFFFFFFFFFFF = .ok .fbegin := by decide

theorem test_decode_fbyte : decode 0x0241000000000000 = .ok (.fbyte 0x41) := by decide

theorem test_decode_fw16 : decode 0x03100210FFFF04D2 = .ok (.fw16 0x10 0x0210 0x04D2) := by decide

theorem test_decode_fw32 : decode 0x0410500612345678 = .ok (.fw32 0x10 0x5006 0x12345678) := by decide

theorem test_decode_fend : decode 0x05123456789ABCDE = .ok .fend := by decide

theorem test_decode_pack : decode 0x10130000000001C2 = .ok (.pack 19 450) := by decide

theorem test_decode_unpack : decode 0x1105000009A42B7B = .ok (.unpack 5 0x09A42B7B) := by decide

theorem test_decode_dsplit : decode 0x1202000000003039 = .ok (.dsplit 2 12345) := by decide

theorem test_decode_tick : decode 0x20FE000000000000 = .ok (.tick false) ∧ decode 0x20FF000000000000 = .ok (.tick true) := by
  decide

theorem test_decode_sethm : decode 0x2100000000000004 = .ok (.sethm 4) := by decide

theorem test_decode_poll : decode 0x221B000000000000 = .ok (.poll 0x1B) := by decide

theorem test_decode_cfgwr : decode 0x303000000000031B = .ok (.cfgwr 0x30 0x031B) := by decide

theorem test_decode_cfgrd : decode 0x3126000000000000 = .ok (.cfgrd 0x26) := by decide

theorem test_decode_init : decode 0x3200000000000000 = .ok .init := by decide

/-- spec/95_test_vectors.md V22, and the other ends of the ranges of spec/30_encoding.md R38(a). -/
theorem test_decode_undefined_opcodes :
    [0x00, 0x06, 0x0F, 0x13, 0x1F, 0x23, 0x2F, 0x33, 0x80, 0xFF].all
      (fun o : Nat => decode (BitVec.ofNat 64 (o * 2 ^ 56)) == .error (.undefinedOpcode (BitVec.ofNat 8 o))) = true := by
  decide

theorem test_decode_table_word :
    decodeTableWord 64 0x30130000000003E8 = some (.cfgwr 0x13 1000) ∧ decodeTableWord 64 0 = none := by decide

/-! ### Single steps -/

/-- spec/40_framer.md R50, example. -/
theorem test_fbegin_emits_start :
    answer (exec .fbegin (running [true])) = some (.ok, 1) ∧ wireOf (exec .fbegin (running [true])) = some [0x7E] := by
  decide

/-- spec/95_test_vectors.md V2. -/
theorem test_fbegin_refused :
    answer (exec .fbegin (running [false])) = some (.abandoned, 0) ∧
      view State.crc (exec .fbegin (running [false])) = some 0xFFFF := by decide

/-- spec/40_framer.md R51, example. -/
theorem test_fbyte_is_stuffed :
    wireOf (exec (.fbyte 0x7E) (framing [true, true])) = some [0x7E, 0x7D, 0x5E] ∧
      view State.crc (exec (.fbyte 0x7E) (framing [true, true])) = some 0x957E := by decide +kernel

/-- spec/95_test_vectors.md V3: a bare ESC ends the debris. -/
theorem test_fbyte_second_byte_refused :
    answer (exec (.fbyte 0x7D) (framing [true, false])) = some (.abandoned, 1) ∧
      view State.crc (exec (.fbyte 0x7D) (framing [true, false])) = some 0xA7E5 := by decide +kernel

/-- spec/40_framer.md R52, example. -/
theorem test_fw16_record :
    answer (exec (.fw16 0x10 0x0210 0x04D2) (framing (List.replicate 5 true))) = some (.ok, 5) ∧
      wireOf (exec (.fw16 0x10 0x0210 0x04D2) (framing (List.replicate 5 true))) =
        some [0x7E, 0x10, 0x10, 0x02, 0xD2, 0x04] := by decide +kernel

/-- spec/40_framer.md R53, example: all seven bytes stuffed. -/
theorem test_fw32_all_stuffed :
    wireOf (exec (.fw32 0x7E 0x7D7E 0x7E7D7E7D) (framing (List.replicate 14 true))) =
      some [0x7E, 0x7D, 0x5E, 0x7D, 0x5E, 0x7D, 0x5D, 0x7D, 0x5D, 0x7D, 0x5E, 0x7D, 0x5D, 0x7D, 0x5E] := by
  decide +kernel

/-- spec/95_test_vectors.md V5: refusal inside a record. -/
theorem test_fw32_refused_inside :
    answer (exec (.fw32 0x10 0x5006 0x12345678) (framing [true, true, false])) = some (.abandoned, 2) ∧
      view State.crc (exec (.fw32 0x10 0x5006 0x12345678) (framing [true, true, false])) = some 0xBAF3 := by
  decide +kernel

/-- spec/40_framer.md R54, example: the CRC of 41 is 0xA3F5. -/
theorem test_fend_trailer :
    wireOf (exec .fend { framing [true, true, true] with crc := 0x5C0A }) = some [0x7E, 0xF5, 0xA3, 0x7E] := by
  decide +kernel

/-- spec/95_test_vectors.md V7: STOP refused. -/
theorem test_fend_stop_refused :
    answer (exec .fend { framing [true, true, false] with crc := 0x5C0A }) = some (.abandoned, 2) ∧
      view State.fstate (exec .fend { framing [true, true, false] with crc := 0x5C0A }) = some .idle := by
  decide +kernel

/-- spec/41_packer.md R62, examples. -/
theorem test_pack_clamps :
    answer (exec (.pack 20 1500) State.reset) = some (.ok, 0x001FF800) ∧
      answer (exec (.pack 21 (BitVec.ofInt 32 (-7))) State.reset) = some (.ok, 0) := by decide +kernel

theorem test_pack_row_22_is_illegal : answer (exec (.pack 22 1) State.reset) = some (.illegal, 0) := by decide +kernel

/-- spec/41_packer.md R63, examples. -/
theorem test_unpack_lanes :
    answer (exec (.unpack 5 0x09A42B7B) State.reset) = some (.ok, 0x17B) ∧
      answer (exec (.unpack 6 0x09A42B7B) State.reset) = some (.ok, 0x15) ∧
      answer (exec (.unpack 7 0x09A42B7B) State.reset) = some (.ok, 0x4D2) := by decide +kernel

/-- spec/41_packer.md R65, examples: signs and saturation. -/
theorem test_dsplit_signs_and_saturation :
    answer (exec (.dsplit 2 (BitVec.ofInt 32 (-1234))) State.reset) = some (.ok, 0xFFF4FFDE) ∧
      answer (exec (.dsplit 4 0x80000000) State.reset) = some (.ok, 0x8000F1C0) ∧
      answer (exec (.dsplit 0 70000) State.reset) = some (.ok, 0x7FFF0000) := by decide +kernel

/-- spec/42_scheduler.md R72, example. -/
theorem test_tick_selects_group_6 :
    answer (exec (.tick false) (scheduling [true])) = some (.ok, 6) ∧
      view (fun t => t.last[6]) (exec (.tick false) (scheduling [true])) = some 2 := by decide +kernel

/-- spec/95_test_vectors.md P5: a tick that is not ready only counts time. -/
theorem test_tick_not_ready :
    answer (exec (.tick false) (scheduling [false])) = some (.notReady, 0) ∧
      view State.now (exec (.tick false) (scheduling [false])) = some 3 := by decide +kernel

/-- spec/42_scheduler.md R73. -/
theorem test_sethm_writes_current_only :
    view (fun t => (t.healthCur, t.healthPrev)) (exec (.sethm 4) (running [])) = some (4, 0) := by decide

/-- spec/95_test_vectors.md V20: value 2 of 3, then the counter wraps. -/
theorem test_poll_wraps :
    answer (exec (.poll 0x1B) (polled 2)) = some (.ok, 2) ∧
      view (fun t => t.rr[0]) (exec (.poll 0x1B) (polled 2)) = some 0 := by decide +kernel

/-- spec/95_test_vectors.md V20: a slot with no values answers no poll. -/
theorem test_poll_of_unregistered_slot : answer (exec (.poll 0x22) (polled 2)) = some (.none, 0) := by decide +kernel

/-- spec/95_test_vectors.md V21: bits 31:16 of SENSOR3 are ignored. -/
theorem test_cfgwr_sensor3 :
    view (fun t => (t.sensId[3], t.sensM[3], t.rr[3])) (exec (.cfgwr 0x33 0xFFFFFFFF) State.reset) =
      some (0xFF, 0xFF, 0) := by decide +kernel

/-- spec/95_test_vectors.md V21: NOW is read-only. -/
theorem test_cfgwr_now_is_illegal : answer (exec (.cfgwr 0x03 5) State.reset) = some (.illegal, 0) := by decide +kernel

/-- spec/43_system.md R80, examples; spec/95_test_vectors.md V20. -/
theorem test_cfgrd_views :
    answer (exec (.cfgrd 0x00) abandoned) = some (.ok, 5) ∧
      answer (exec (.cfgrd 0x01) State.reset) = some (.ok, 0x207D7E7E) ∧
      answer (exec (.cfgrd 0x30) (polled 1)) = some (.ok, 0x0001031B) := by decide +kernel

/-- spec/43_system.md R81, examples. -/
theorem test_init_checks_delim :
    answer (exec .init State.reset) = some (.ok, 0) ∧
      answer (exec .init { State.reset with delim := 0x207D7D7E }) = some (.initFail, 0) := by decide +kernel

/-- The first command after reset, through the step. -/
theorem test_step_runs_the_placed_word :
    answer (step (State.reset.withFetchWord 64 0x3101000000000000)) = some (.ok, 0x207D7E7E) := by decide +kernel

/-! ### Witnesses: the hypotheses of the statements can be met -/

theorem test_witness_EncodeDecodeKeepsUsedBits : decode 0x20FE0000DEADBEEF = .ok (.tick false) := by decide

theorem test_witness_DecodeRejectsUndefinedOpcodes :
    decode 0x33FFFFFFFFFFFFFF = .error (.undefinedOpcode 0x33) := by decide

theorem test_witness_StepRunsDecodedCommand :
    (State.reset.withFetchWord 64 0x1000000000000003).inputs = .command 0x1000000000000003 :: [] ∧
      decode 0x1000000000000003 = .ok (.pack 0 3) := by decide

theorem test_witness_UndefinedOpcodeAnswersIllegal :
    (State.reset.withFetchWord 64 0x8001020304050607).inputs = .command 0x8001020304050607 :: [] ∧
      ((0x8001020304050607 : CmdWord).extractLsb' 56 8 ∉
        ([0x01, 0x02, 0x03, 0x04, 0x05, 0x10, 0x11, 0x12, 0x20, 0x21, 0x22, 0x30, 0x31, 0x32] : List Byte)) := by
  decide

theorem test_witness_ResetEventRestoresResetValues :
    State.inputs { framing [] with inputs := [.reset] } = .reset :: [] := by decide

theorem test_witness_IdleStepChangesNothing : (framing []).inputs = [] := by decide

theorem test_witness_IllegalExactlyByModeOrOperand :
    ¬(legalInMode .fbegin State.reset.mode = true ∧ Instr.wellFormed .fbegin = true) ∧
      ¬(legalInMode (.pack 22 0) State.reset.mode = true ∧ Instr.wellFormed (.pack 22 0) = true) ∧
      (legalInMode (.pack 21 0) State.reset.mode = true ∧ Instr.wellFormed (.pack 21 0) = true) := by decide

/-- One case for each status the statement speaks of. -/
theorem test_witness_StatusesComeFromTheirCommands :
    answer (exec (.tick false) (running [true])) = some (.none, 0) ∧
      answer (exec (.tick true) (running [true])) = some (.chunk, 0) ∧
      answer (exec (.tick true) (running [false])) = some (.notReady, 0) ∧
      answer (exec (.fbyte 0) abandoned) = some (.abandoned, 0) ∧
      answer (exec .init { State.reset with delim := 0 }) = some (.initFail, 0) ∧
      answer (exec .fend (running [])) = some (.seqErr, 0) := by decide +kernel

theorem test_witness_NoCommandReadsTheWire : ∃ t, exec (.fbyte 0x7E) (framing [true, true]) = .next t := ⟨_, rfl⟩

/-- The three clauses: entry of RUN, reset, and a command in RUN. -/
theorem test_witness_ModeAndConfigurationDiscipline :
    view State.mode (step (State.reset.withFetchWord 64 0x3200000000000000)) = some .run ∧
      view State.mode (step { running [] with inputs := [.reset] }) = some .config ∧
      view State.mode (step ((running []).withFetchWord 64 0x3002000000000000)) = some .run := by decide +kernel

theorem test_witness_OnlyListedCommandsWrite : ∃ t, exec (.tick false) (scheduling [true]) = .next t := ⟨_, rfl⟩

theorem test_witness_WireIsAppendOnly : ∃ t, step { framing [] with inputs := [.reset] } = .next t := ⟨_, rfl⟩

/-- The invariant holds of an open frame in RUN mode with registered slots. -/
theorem test_witness_StepKeepsTheInvariant :
    State.Inv { polled 2 with fstate := .opened, inputs := [.reset] } ∧
      ∃ t, step { polled 2 with fstate := .opened, inputs := [.reset] } = .next t :=
  ⟨⟨(fun h => by cases h), (fun _ => by decide), by decide⟩, _, rfl⟩

/-- One stuffed byte in an open frame, and another to come. -/
theorem test_witness_StepKeepsFrameOnWire :
    let s : State :=
      { framing [true, true] with wire := [0x7E, 0x7D, 0x5E], crc := 0x957E,
                                  inputs := [.command 0x0241000000000000] }
    s.Inv ∧ s.fstate = .opened ∧ s.FrameOnWire ∧ ∃ t, step s = .next t :=
  ⟨⟨(fun h => by cases h), (fun _ => by decide), by decide⟩, rfl,
    (fun _ => ⟨[], [0x7E], by decide, by decide +kernel⟩), _, rfl⟩

theorem test_witness_StepKeepsDisabledGroupsUntouched :
    let s := (scheduling [true]).withFetchWord 64 0x2000000000000000
    s.Inv ∧ s.DisabledUntouched ∧ ∃ t, step s = .next t :=
  ⟨⟨(fun h => by cases h), (fun _ => by decide), by decide⟩, ⟨by decide, by decide⟩, _, rfl⟩

theorem test_witness_FbeginStartsAFrame :
    (running [true]).mode = .run ∧ (running [true]).readyAt 0 = true ∧ (running [false]).readyAt 0 = false := by
  decide

/-- FBYTE, FW16 and FW32 in an open frame, with the transport's answers for all their bytes. -/
theorem test_witness_DataCommandSendsStuffedBytes :
    (dataBytes (.fbyte 0x7E) = some [0x7E] ∧ dataBytes (.fw16 0 0 0) = some [0, 0, 0, 0, 0] ∧
      dataBytes (.fw32 0 0 0) = some [0, 0, 0, 0, 0, 0, 0]) ∧
      (framing [true, true]).mode = .run ∧ (framing [true, true]).fstate = .opened ∧
      (framing [true, true]).acceptsNext (stuffAll 0x207D7E7E [0x7E]).length ∧
      (framing (List.replicate 5 true)).acceptsNext (stuffAll 0x207D7E7E [0, 0, 0, 0, 0]).length ∧
      (framing (List.replicate 7 true)).acceptsNext (stuffAll 0x207D7E7E [0, 0, 0, 0, 0, 0, 0]).length := by
  unfold State.acceptsNext; decide

/-- The first and the last byte of a stuffed sequence refused. -/
theorem test_witness_DataCommandAbandonsAtRefusedByte :
    (stuffAll 0x207D7E7E [0x7E]).length = 2 ∧ (framing [false]).refusesAt 0 ∧ (framing [true, false]).refusesAt 1 := by
  unfold State.refusesAt State.acceptsNext; decide

theorem test_witness_DataCommandSuppressedWhenAbandoned :
    dataBytes (.fbyte 0x41) = some [0x41] ∧ abandoned.mode = .run ∧ abandoned.fstate = .abandoned := by decide

theorem test_witness_NoOpenFrameAnswersSeqerr :
    dataBytes (.fbyte 0x41) = some [0x41] ∧ (running []).mode = .run ∧ (running []).fstate = .idle ∧
      view State.fstate (exec .fend abandoned) = some .idle ∧
      view State.fstate (exec .fbegin (running [true])) = some .opened := by decide

/-- The trailer 00 00 and STOP of an empty frame. -/
theorem test_witness_FendClosesTheFrame :
    let s := framing [true, true, true]
    s.mode = .run ∧ s.fstate = .opened ∧ endBytes s.delim s.crc = [0x00, 0x00, 0x7E] ∧ s.acceptsNext 3 := by
  unfold State.acceptsNext; decide

/-- The first trailer byte refused, and STOP refused. -/
theorem test_witness_FendAbandonsAtRefusedByte :
    let s := framing [true, true, false]
    s.mode = .run ∧ s.fstate = .opened ∧ (endBytes s.delim s.crc).length = 3 ∧ s.refusesAt 2 ∧
      (framing [false]).refusesAt 0 := by
  unfold State.refusesAt State.acceptsNext; decide

theorem test_witness_FendLeavesAbandonedFrame : abandoned.mode = .run ∧ abandoned.fstate = .abandoned := by decide

/-- The empty frame, and a frame of one FBYTE and one FW16. -/
theorem test_witness_CompleteFrameGoesOnTheWire :
    (running (List.replicate 4 true)).acceptsNext (frameBytes 0x207D7E7E []).length ∧
      [Instr.fbyte 1, .fw16 2 3 4].map dataBytes = [[1], [2, 3, 0, 4, 0]].map some ∧
      (running (List.replicate 22 true)).acceptsNext (frameBytes 0x207D7E7E [1, 2, 3, 0, 4, 0]).length := by
  refine ⟨?_, by decide, ?_⟩ <;> (unfold State.acceptsNext; decide +kernel)

theorem test_witness_CompleteFrameIsEscapeSafe : delimValid State.reset.delim = true := by decide

theorem test_witness_DeframeRecoversTheData :
    let s := running (List.replicate 22 true)
    s.mode = .run ∧ delimValid s.delim = true ∧ [Instr.fbyte 0x7E].map dataBytes = [[0x7E]].map some ∧
      s.acceptsNext (frameBytes s.delim [0x7E]).length := by
  refine ⟨by decide, by decide, by decide, ?_⟩
  unfold State.acceptsNext; decide +kernel

/-- The data byte 41 of the frame 7E 41 F5 A3 7E replaced by 42, and its last trailer byte by 00. -/
theorem test_witness_SingleByteCorruptionDetected :
    let u := ([0x41] : List Byte) ++ trailerBytes (foldBytes hw.crc.init [0x41])
    u[0]? ≠ none ∧ u[0]? ≠ some 0x42 ∧
      unescape 0x207D7E7E (innerBytes [0x7E, 0x42, 0xF5, 0xA3, 0x7E]) = some (u.set 0 0x42) ∧
      u[2]? ≠ none ∧ u[2]? ≠ some 0x00 ∧
      unescape 0x207D7E7E (innerBytes [0x7E, 0x41, 0xF5, 0x00, 0x7E]) = some (u.set 2 0x00) := by
  decide +kernel

/-- The last row of the table, and the first index above it. -/
theorem test_witness_PackAnswersTheClampedLane :
    hw.fields[(21 : Byte).toNat]? = some ⟨.attitudeRange, 11, 21, 0x7FF⟩ ∧ (22 : Byte).toNat > 21 := by decide

theorem test_witness_UnpackAnswersTheLane :
    hw.fields[(0 : Byte).toNat]? = some ⟨.gpsStatus, 4, 0, 0xF⟩ ∧ (255 : Byte).toNat > 21 := by decide

/-- Two rows of one word. -/
theorem test_witness_UnpackInvertsPack :
    hw.fields[19]? = some ⟨.attitudeRange, 11, 0, 0x7FF⟩ ∧
      hw.fields[20]? = some ⟨.attitudeRange, 10, 11, 0x3FF⟩ := by decide

theorem test_witness_PackStaysInItsLane :
    (⟨.attitudeRange, 10, 11, 0x3FF⟩ : FieldSpec) ∈ hw.fields ∧
      (packField ⟨.attitudeRange, 10, 11, 0x3FF⟩ 1500).getLsbD 20 = true := by
  decide +kernel

theorem test_witness_DsplitSplitsAtThePoint : (4 : Byte).toNat ≤ 4 ∧ (5 : Byte).toNat > 4 := by decide

theorem test_witness_PackerDependsOnTheCommandAlone :
    isPacker (.pack 0 0) = true ∧ isPacker (.unpack 0 0) = true ∧ isPacker (.dsplit 0 0) = true := by decide

theorem test_witness_UnreadyTickOnlyCountsTime :
    (scheduling [false]).mode = .run ∧ (scheduling [false]).readyAt 0 = false := by decide

theorem test_witness_PendingChunkPreemptsTheTick :
    (scheduling [true]).mode = .run ∧ (scheduling [true]).readyAt 0 = true := by decide

theorem test_witness_HealthChangeSelectsAutopilotStatus :
    let s := { scheduling [true] with healthCur := 4 }
    s.mode = .run ∧ s.readyAt 0 = true ∧ s.HealthTriggered := by
  unfold State.HealthTriggered; decide

/-- Group 6 is selected in the worked example of spec/42_scheduler.md R72. -/
theorem test_witness_TickSelectsTheLargestOverrun :
    let s := scheduling [true]
    s.mode = .run ∧ s.readyAt 0 = true ∧ ¬s.HealthTriggered ∧ s.IsSelected s.now 6 := by
  unfold State.HealthTriggered State.IsSelected State.IsEligible; decide +kernel

theorem test_witness_TickWithNothingDueAnswersNone :
    let s := { scheduling [true] with now := 1 }
    s.mode = .run ∧ s.readyAt 0 = true ∧ ¬s.HealthTriggered ∧ ∀ g, ¬s.IsEligible s.now g := by
  unfold State.HealthTriggered State.IsEligible; decide +kernel

/-- Groups 0 and 2 tie: PRIO prefers 0 (spec/42_scheduler.md R77, t = 200). -/
theorem test_witness_SelectionIsUnique :
    let s := { running [] with groupEn := 0x005, now := 200 }
    s.IsEligible s.now 2 ∧ s.IsSelected s.now 0 := by
  unfold State.IsSelected State.IsEligible; decide +kernel

theorem test_witness_OverdueGroupIsServedWithinElevenTicks :
    let s := { scheduling (List.replicate 11 true) with now := 3 }
    s.mode = .run ∧ s.groupEn.getLsbD 6 = true ∧ s.interval[6].toNat < s.elapsedTicks s.now 6 ∧
      s.elapsedTicks s.now 6 + 11 < 2 ^ 32 ∧ s.acceptsNext 11 := by
  unfold State.acceptsNext; decide +kernel

theorem test_witness_SethmWritesTheCurrentMask :
    let s := scheduling [true]
    s.mode = .run ∧ s.groupEn.getLsbD 3 = true ∧ (4 : Word) ≠ s.healthPrev ∧ s.readyAt 0 = true := by decide

/-- A counter at each end of its range. -/
theorem test_witness_PollReportsAndAdvances :
    (polled 0).mode = .run ∧ (polled 0).IsPollSlot 0x1B 0 ∧ (polled 0).rr[0].toNat < (polled 0).sensM[0].toNat ∧
      (polled 2).IsPollSlot 0x1B 0 ∧ (polled 2).rr[0].toNat + 1 = (polled 2).sensM[0].toNat := by
  unfold State.IsPollSlot; decide +kernel

theorem test_witness_UnknownPollIsIgnored :
    (polled 0).mode = .run ∧ ∀ i : Slot, ¬((polled 0).sensM[i] ≠ 0 ∧ (polled 0).sensId[i] = 0x22) := by decide +kernel

theorem test_witness_PollsCycleThroughEveryValue :
    (polled 0).mode = .run ∧ (polled 0).IsPollSlot 0x34 1 ∧ (polled 0).rr[1] = 0 := by
  unfold State.IsPollSlot; decide +kernel

/-- Both modes, and the indices next to the ends of the writable ranges. -/
theorem test_witness_CfgwrWritesTheNamedRegister :
    State.reset.mode = .config ∧ (running []).mode = .run ∧
      ∀ a ∈ ([0x00, 0x03, 0x0F, 0x1B, 0x2F, 0x34, 0xFF] : List Byte),
        a ≠ 0x01 ∧ a ≠ 0x02 ∧ ¬(0x10 ≤ a.toNat ∧ a.toNat ≤ 0x1A) ∧ ¬(0x30 ≤ a.toNat ∧ a.toNat ≤ 0x33) := by decide

/-- The indices next to the ends of the implemented ranges. -/
theorem test_witness_CfgrdAnswersTheRegisterView :
    ∀ a ∈ ([0x06, 0x0F, 0x1B, 0x1F, 0x2B, 0x2F, 0x34, 0xFF] : List Byte),
      ¬a.toNat ≤ 0x05 ∧ ¬(0x10 ≤ a.toNat ∧ a.toNat ≤ 0x1A) ∧ ¬(0x20 ≤ a.toNat ∧ a.toNat ≤ 0x2A) ∧
        ¬(0x30 ≤ a.toNat ∧ a.toNat ≤ 0x33) := by decide

theorem test_witness_InitEntersRunOrFailsFast :
    State.reset.mode = .config ∧ delimValid State.reset.delim = true ∧ delimValid 0x207D7D7E = false ∧
      (running []).mode = .run := by decide

end Sys2Proof.Tests
end

section
/-! SUPPORT. The scope of the model (spec/00_scope.md): the values of the implementation parameters (R7), and that no
command reads WIRE, the responses given or the commands to come (R3, R19, R31). -/

namespace Sys2Proof.Machine

/-! ### The implementation parameters -/

/-- The group of a number: `GROUP_INDEX` read backwards (spec/00_scope.md R7). -/
def groupNamed (g : Group) : GroupName :=
  #v[GroupName.gpsPosition, .gpsStatus, .battery, .autopilotStatus, .home, .velocityYaw, .attitudeRange, .vario, .vfas,
    .parameters, .baroAltitude][g]

theorem groupNamed_groupNumber (n : GroupName) : groupNamed (groupNumber n) = n := by
  cases n <;> rfl

theorem groupNumber_groupNamed (g : Group) : groupNumber (groupNamed g) = g := by
  revert g; decide

theorem groupNumber_bijective : Function.Bijective groupNumber :=
  Function.bijective_iff_has_inverse.mpr ⟨groupNamed, groupNamed_groupNumber, groupNumber_groupNamed⟩

theorem nat_repeat_eq_iterate {α : Type} (f : α → α) (n : Nat) (a : α) : Nat.repeat f n a = f^[n] a := by
  induction n with
  | zero => rfl
  | succ n ih => rw [Function.iterate_succ_apply', ← ih, Nat.repeat]

/-- `crc_fold` is eight shifts of the accumulator and the byte (spec/40_framer.md R45). -/
theorem crcFold_eq_iterate (c : Crc) (b : Byte) : crcFold c b = crcShift^[8] (c ^^^ b.setWidth 16) :=
  nat_repeat_eq_iterate crcShift 8 _

/-- Settles O8: the group numbers by the inverse of `GROUP_INDEX`, the fold as eight shifts, the rest by its value. -/
theorem parametersHaveTheSpecsValues : Obligations.ParametersHaveTheSpecsValues :=
  ⟨⟨config_nGroup_eq, config_healthW_eq, config_timeW_eq, config_nField_eq, config_packInW_eq, config_nSens_eq,
      config_crcW_eq⟩,
    rfl, groupNumber_bijective, rfl, rfl, rfl, fun _ => rfl, crcFold_eq_iterate, ⟨rfl, rfl, rfl, rfl⟩, rfl, rfl, rfl,
    rfl⟩

/-! ### Other observations in place of a state's own -/

/-- `s` with another WIRE, other responses given and other inputs to come. -/
def State.observing (s : State) (w : List Byte) (rs : List Response) (ins : List Input) : State :=
  { s with wire := w, responses := rs, inputs := ins }

section

variable (s : State) (w : List Byte) (rs : List Response) (ins : List Input)

@[simp] theorem State.observing_fstate : (s.observing w rs ins).fstate = s.fstate := rfl
@[simp] theorem State.observing_now : (s.observing w rs ins).now = s.now := rfl
@[simp] theorem State.observing_rr : (s.observing w rs ins).rr = s.rr := rfl
@[simp] theorem State.observing_delim : (s.observing w rs ins).delim = s.delim := rfl

theorem State.observing_self : s.observing s.wire s.responses s.inputs = s := rfl

/-- An answer is added to the responses put in place. -/
@[simp] theorem State.observing_respond (st : Status) (d : Word) :
    (s.observing w rs ins).respond st d = (s.respond st d).observing w (rs ++ [⟨st, d⟩]) ins := rfl

@[simp] theorem State.observing_txReady : (s.observing w rs ins).txReady = s.txReady := rfl

@[simp] theorem State.observing_due (t : Time) : (s.observing w rs ins).due t = s.due t := rfl

@[simp] theorem State.observing_pollSlot (b : Byte) : (s.observing w rs ins).pollSlot b = s.pollSlot b := rfl

@[simp] theorem State.observing_readReg (r : Reg) : (s.observing w rs ins).readReg r = s.readReg r := by
  cases r <;> rfl

@[simp] theorem State.observing_writeReg (v : Word) (r : Reg) :
    (s.observing w rs ins).writeReg v r = (s.writeReg v r).map (·.observing w rs ins) := by
  cases r <;> rfl

end

/-! ### Updates that only append to the observations -/

/-- From `s`, whatever WIRE, responses and inputs it is given, `f` makes the same changes, appends `bs` to WIRE and `qs`
to the responses, and leaves the inputs. -/
def Appends (f : State → State) (s : State) (bs : List Byte) (qs : List Response) : Prop :=
  ∀ w rs ins, f (s.observing w rs ins) = (f s).observing (w ++ bs) (rs ++ qs) ins

theorem Appends.wire {f : State → State} {s : State} {bs : List Byte} {qs : List Response} (h : Appends f s bs qs) :
    (f s).wire = s.wire ++ bs :=
  congrArg State.wire (h s.wire s.responses s.inputs)

theorem Appends.comp {f g : State → State} {s : State} {bs cs : List Byte} {qs ps : List Response}
    (hg : Appends g (f s) cs ps) (hf : Appends f s bs qs) : Appends (g ∘ f) s (bs ++ cs) (qs ++ ps) := by
  intro w rs ins
  rw [Function.comp_apply, hf, hg, List.append_assoc, List.append_assoc]
  rfl

/-- An update that the observations pass through unchanged appends nothing. -/
theorem Appends.of_silent {f : State → State} {s : State}
    (hf : ∀ w rs ins, f (s.observing w rs ins) = (f s).observing w rs ins) : Appends f s [] [] :=
  fun w rs ins => by rw [hf, List.append_nil, List.append_nil]

theorem appends_respond (st : Status) (d : Word) (s : State) : Appends (·.respond st d) s [] [⟨st, d⟩] :=
  fun w rs ins => by simp

/-- An update appends what another does that it agrees with on `s`, whatever the observations. -/
theorem Appends.congr {f g : State → State} {s : State} {bs : List Byte} {qs : List Response} (hg : Appends g s bs qs)
    (h : ∀ w rs ins, f (s.observing w rs ins) = g (s.observing w rs ins)) : Appends f s bs qs := by
  have hs : f s = g s := h s.wire s.responses s.inputs
  intro w rs ins
  rw [h, hs, hg]

/-- From `s` the update `f` appends bytes to WIRE, the same whatever the observations. -/
def EmitsBlindly (f : State → State) (s : State) : Prop := ∃ bs, Appends f s bs []

/-- From `s` the update `f` appends bytes to WIRE and one response, the same whatever the observations. -/
def AnswersBlindly (f : State → State) (s : State) : Prop := ∃ bs r, Appends f s bs [r]

theorem EmitsBlindly.comp {f g : State → State} {s : State} (hg : EmitsBlindly g (f s)) (hf : EmitsBlindly f s) :
    EmitsBlindly (g ∘ f) s := by
  obtain ⟨bs, hf⟩ := hf
  obtain ⟨cs, hg⟩ := hg
  exact ⟨bs ++ cs, hg.comp hf⟩

theorem EmitsBlindly.congr {f g : State → State} {s : State} (hg : EmitsBlindly g s)
    (h : ∀ w rs ins, f (s.observing w rs ins) = g (s.observing w rs ins)) : EmitsBlindly f s :=
  hg.imp fun _ hg => hg.congr h

theorem AnswersBlindly.congr {f g : State → State} {s : State} (hg : AnswersBlindly g s)
    (h : ∀ w rs ins, f (s.observing w rs ins) = g (s.observing w rs ins)) : AnswersBlindly f s :=
  hg.imp fun _ hg => hg.imp fun _ hg => hg.congr h

theorem emitsBlindly_id (s : State) : EmitsBlindly id s := ⟨[], .of_silent fun _ _ _ => rfl⟩

theorem answersBlindly_respond (st : Status) (d : Word) (s : State) : AnswersBlindly (·.respond st d) s :=
  ⟨[], ⟨st, d⟩, appends_respond st d s⟩

theorem AnswersBlindly.of_silent {f : State → State} {s : State}
    (hf : ∀ w rs ins, f (s.observing w rs ins) = (f s).observing w rs ins) (st : Status) (d : Word) :
    AnswersBlindly (fun u => (f u).respond st d) s :=
  ⟨[], ⟨st, d⟩, (appends_respond st d (f s)).comp (.of_silent hf)⟩

/-! ### The emissions (spec/40_framer.md R47 to R54) -/

theorem emitsBlindly_emit (b : Byte) (s : State) : EmitsBlindly (·.emit b) s := by
  cases hr : s.txReady with
  | true =>
    refine ⟨[b], fun w rs ins => ?_⟩
    simp only [State.emit, State.observing_txReady, hr, if_true, List.append_nil]
    rfl
  | false =>
    refine ⟨[], fun w rs ins => ?_⟩
    simp only [State.emit, State.observing_txReady, hr, Bool.false_eq_true, if_false, List.append_nil]
    rfl

theorem emitsBlindly_emitIfOpen (b : Byte) (s : State) : EmitsBlindly (·.emitIfOpen b) s := by
  by_cases ho : s.fstate = .opened
  · exact (emitsBlindly_emit b s).congr fun _ _ _ => by simp [State.emitIfOpen, ho]
  · exact (emitsBlindly_id s).congr fun w rs ins => State.emitIfOpen_of_ne (s := s.observing w rs ins) ho b

theorem emitsBlindly_transmit (out : List Byte) (s : State) : EmitsBlindly (·.transmit out) s := by
  induction out generalizing s with
  | nil => exact emitsBlindly_id s
  | cons b out ih => exact (ih (s.emitIfOpen b)).comp (emitsBlindly_emitIfOpen b s)

/-- `send_byte`: what is transmitted and folded depends on DELIM, CRC and the transport alone. -/
theorem emitsBlindly_sendByte (b : Byte) (s : State) : EmitsBlindly (·.sendByte b) s := by
  by_cases ho : s.fstate = .opened
  · obtain ⟨bs, h⟩ := emitsBlindly_transmit (stuff s.delim b) s
    refine ⟨bs, fun w rs ins => ?_⟩
    beta_reduce
    rw [State.sendByte_opened ho, State.sendByte_opened (s := s.observing w rs ins) ho]
    exact congrArg (fun u : State => { u with crc := hw.crc.fold s.crc b }) (h w rs ins)
  · exact (emitsBlindly_id s).congr fun w rs ins => State.sendByte_of_ne (s := s.observing w rs ins) ho b

theorem emitsBlindly_sendBytes (bs : List Byte) (s : State) : EmitsBlindly (·.sendBytes bs) s := by
  induction bs generalizing s with
  | nil => exact emitsBlindly_id s
  | cons b bs ih => exact (ih (s.sendByte b)).comp (emitsBlindly_sendByte b s)

theorem emitsBlindly_beginFrame (s : State) : EmitsBlindly State.beginFrame s :=
  emitsBlindly_emit (startByte s.delim) { s with crc := hw.crc.init, fstate := .opened }

theorem emitsBlindly_sendTrailer (s : State) : EmitsBlindly State.sendTrailer s :=
  (emitsBlindly_transmit (endBytes s.delim s.crc) s).congr fun _ _ _ => State.sendTrailer_eq_transmit _

/-- The count a framer command answers is that of the bytes it appended, not of those on WIRE before. -/
theorem EmitsBlindly.framed {body : State → State} {s : State} (h : EmitsBlindly body s) :
    AnswersBlindly (·.framed body) s := by
  obtain ⟨bs, h⟩ := h
  refine ⟨bs, ⟨frameStatus (body s).fstate, BitVec.ofNat 32 bs.length⟩, fun w rs ins => ?_⟩
  have hcount : sentCount (s.observing w rs ins) ((body s).observing (w ++ bs) rs ins) = BitVec.ofNat 32 bs.length :=
    sentCount_append rfl
  simp [State.framed, hcount, sentCount_append h.wire, h w rs ins]

theorem EmitsBlindly.inFrame {body : State → State} {s : State} (h : EmitsBlindly body s) :
    AnswersBlindly (·.inFrame body) s := by
  cases hf : s.fstate with
  | idle =>
    exact (answersBlindly_respond .seqErr 0 s).congr fun w rs ins =>
      State.inFrame_idle (s := s.observing w rs ins) hf body
  | abandoned =>
    exact (answersBlindly_respond .abandoned 0 s).congr fun w rs ins =>
      State.inFrame_abandoned (s := s.observing w rs ins) hf body
  | opened =>
    exact h.framed.congr fun w rs ins => State.inFrame_opened (s := s.observing w rs ins) hf body

theorem answersBlindly_endFrame (s : State) : AnswersBlindly State.endFrame s := by
  obtain ⟨bs, r, h⟩ := (emitsBlindly_sendTrailer s).framed
  exact ⟨bs, r, fun w rs ins => congrArg (fun u : State => { u with fstate := .idle }) (h w rs ins)⟩

theorem answersBlindly_closeFrame (s : State) : AnswersBlindly State.closeFrame s := by
  cases hf : s.fstate with
  | idle => exact (answersBlindly_respond .seqErr 0 s).congr fun _ _ _ => by simp [State.closeFrame, hf]
  | opened => exact (answersBlindly_endFrame s).congr fun _ _ _ => by simp [State.closeFrame, hf]
  | abandoned => exact (answersBlindly_endFrame s).congr fun _ _ _ => by simp [State.closeFrame, hf]

/-! ### The scheduler and the system commands -/

theorem answersBlindly_decideGroup (t : Time) (s : State) : AnswersBlindly (·.decideGroup t) s := by
  cases hd : s.due t with
  | none => exact (answersBlindly_respond .none 0 s).congr fun _ _ _ => by simp [State.decideGroup, hd]
  | some g =>
    exact (AnswersBlindly.of_silent (f := (·.markSent t g)) (fun _ _ _ => rfl) .ok (BitVec.ofNat 32 g.val)).congr
      fun _ _ _ => by simp [State.decideGroup, hd]

theorem appends_passTick (s : State) : Appends State.passTick s [] [] := .of_silent fun _ _ _ => rfl

theorem answersBlindly_tickOutcome (c : Bool) (s : State) : AnswersBlindly (·.tickOutcome c) s := by
  have hpass (st : Status) : AnswersBlindly (·.passTick.respond st 0) s := .of_silent (fun _ _ _ => rfl) st 0
  cases hr : s.txReady with
  | false => exact (hpass .notReady).congr fun _ _ _ => by simp [State.tickOutcome, hr]
  | true =>
    cases c with
    | true => exact (hpass .chunk).congr fun _ _ _ => by simp [State.tickOutcome, hr]
    | false =>
      obtain ⟨bs, r, h⟩ := answersBlindly_decideGroup s.now s.passTick
      exact AnswersBlindly.congr ⟨bs, r, h.comp (appends_passTick s)⟩ fun _ _ _ => by
        simp [State.tickOutcome, hr]

theorem answersBlindly_answerPoll (b : Byte) (s : State) : AnswersBlindly (·.answerPoll b) s := by
  cases hp : s.pollSlot b with
  | none => exact (answersBlindly_respond .none 0 s).congr fun _ _ _ => by simp [State.answerPoll, hp]
  | some i =>
    exact (AnswersBlindly.of_silent (f := (·.advance i)) (fun _ _ _ => rfl) .ok (pollData i s.rr[i])).congr
      fun _ _ _ => by simp [State.answerPoll, hp]

theorem answersBlindly_configure (a : Byte) (v : Word) (s : State) : AnswersBlindly (·.configure a v) s := by
  have hbind w rs ins : (regOfIndex a).bind ((s.observing w rs ins).writeReg v) =
      ((regOfIndex a).bind (s.writeReg v)).map (·.observing w rs ins) := by
    cases regOfIndex a with
    | none => rfl
    | some r => exact s.observing_writeReg w rs ins v r
  cases hu : (regOfIndex a).bind (s.writeReg v) with
  | none =>
    exact (answersBlindly_respond .illegal 0 s).congr fun w rs ins => by
      simp only [State.configure, hbind, hu, Option.map_none, State.raise_eq]
  | some u =>
    refine ⟨[], ⟨.ok, 0⟩, fun w rs ins => ?_⟩
    simp only [State.configure, hbind, hu, Option.map_some, State.observing_respond, List.append_nil]

theorem answersBlindly_enterRun (s : State) : AnswersBlindly State.enterRun s := by
  cases hd : delimValid s.delim with
  | true =>
    exact (AnswersBlindly.of_silent (f := fun u => { u with mode := .run }) (fun _ _ _ => rfl) .ok 0).congr
      fun _ _ _ => by simp [State.enterRun, hd]
  | false => exact (answersBlindly_respond .initFail 0 s).congr fun _ _ _ => by simp [State.enterRun, hd]

/-! ### Every command -/

/-- From `s` the command `c` goes to the same next state but for the observations, and to those it appends the same
bytes and the same one response, whatever they are. -/
def RunsBlindly (c : State → Result) (s : State) : Prop :=
  ∃ (t : State) (bs : List Byte) (r : Response), ∀ w rs ins,
    c (s.observing w rs ins) = .next (t.observing (w ++ bs) (rs ++ [r]) ins)

theorem AnswersBlindly.runsBlindly {c : State → Result} {f : State → State} {s : State} (hf : AnswersBlindly f s)
    (h : ∀ w rs ins, c (s.observing w rs ins) = .next (f (s.observing w rs ins))) : RunsBlindly c s := by
  obtain ⟨bs, r, hf⟩ := hf
  exact ⟨f s, bs, r, fun w rs ins => by rw [h, hf]⟩

theorem AnswersBlindly.inRun {body : State → State} {s : State} (h : AnswersBlindly body s) :
    RunsBlindly (Machine.inRun · body) s := by
  cases hm : s.mode with
  | run => exact h.runsBlindly fun w rs ins => inRun_run (s := s.observing w rs ins) hm body
  | config =>
    exact (answersBlindly_respond .illegal 0 s).runsBlindly fun w rs ins =>
      inRun_config (s := s.observing w rs ins) hm body

theorem AnswersBlindly.inConfig {body : State → State} {s : State} (h : AnswersBlindly body s) :
    RunsBlindly (Machine.inConfig · body) s := by
  cases hm : s.mode with
  | config => exact h.runsBlindly fun w rs ins => inConfig_config (s := s.observing w rs ins) hm body
  | run =>
    exact (answersBlindly_respond .illegal 0 s).runsBlindly fun w rs ins =>
      inConfig_run (s := s.observing w rs ins) hm body

theorem runsBlindly_exec (i : Instr) (s : State) : RunsBlindly (exec i) s := by
  have hillegal (h : ∀ u, exec i u = .next (u.respond .illegal 0)) : RunsBlindly (exec i) s :=
    (answersBlindly_respond .illegal 0 s).runsBlindly fun _ _ _ => h _
  have hok (d : Word) (h : ∀ u, exec i u = .next (u.respond .ok d)) : RunsBlindly (exec i) s :=
    (answersBlindly_respond .ok d s).runsBlindly fun _ _ _ => h _
  cases i with
  | fbegin => exact (emitsBlindly_beginFrame s).framed.inRun
  | fbyte b => exact (emitsBlindly_sendByte b s).inFrame.inRun
  | fw16 hdr id v => exact (emitsBlindly_sendBytes (record16 hdr id v) s).inFrame.inRun
  | fw32 hdr id v => exact (emitsBlindly_sendBytes (record32 hdr id v) s).inFrame.inRun
  | fend => exact (answersBlindly_closeFrame s).inRun
  | pack i v =>
    cases hf : fieldRow i with
    | none => exact hillegal (exec_pack_illegal hf v)
    | some f => exact hok _ (exec_pack hf v)
  | unpack i v =>
    cases hf : fieldRow i with
    | none => exact hillegal (exec_unpack_illegal hf v)
    | some f => exact hok _ (exec_unpack hf v)
  | dsplit k v =>
    rcases Nat.lt_or_ge 4 k.toNat with hk | hk
    · exact hillegal (exec_dsplit_illegal hk v)
    · exact hok _ (exec_dsplit hk v)
  | tick c => exact (answersBlindly_tickOutcome c s).inRun
  | sethm m => exact (AnswersBlindly.of_silent (fun _ _ _ => rfl) .ok 0).inRun
  | poll b => exact (answersBlindly_answerPoll b s).inRun
  | cfgwr a v => exact (answersBlindly_configure a v s).inConfig
  | cfgrd a =>
    cases hr : regOfIndex a with
    | none => exact hillegal (exec_cfgrd_illegal hr)
    | some r =>
      exact (answersBlindly_respond .ok (s.readReg r) s).runsBlindly fun _ _ _ => by
        rw [exec_cfgrd hr, State.observing_readReg]
  | init => exact (answersBlindly_enterRun s).inConfig

/-- Settles O15: `exec` at the state's own observations names the next state, the bytes and the response that it has at
all others. -/
theorem noCommandReadsTheWire : Obligations.NoCommandReadsTheWire := by
  intro i s t w rs ins h
  obtain ⟨u, bs, r, hrun⟩ := runsBlindly_exec i s
  have hown : exec i s = .next (u.observing (s.wire ++ bs) (s.responses ++ [r]) s.inputs) := by
    rw [← hrun, State.observing_self]
  rw [hown] at h
  injection h with h
  subst h
  exact ⟨bs, r, rfl, rfl, hrun w rs ins⟩

end Sys2Proof.Machine
end

section
/-! SUPPORT. Who writes the state (spec/10_state.md, summary table): MODE and the configuration (R8, R34), WIRE (R19),
each element by the commands listed for it (R22), and what the scheduler leaves of a disabled group (R14). -/

namespace Sys2Proof.Machine

/-! ### What the shared operations leave unchanged -/

theorem State.passTick_eq (s : State) :
    s.passTick = { s with now := s.now + 1, answers := s.answers.tail, draws := s.draws + 1 } := rfl

/-- A register write touches the configuration alone (spec/20_memory.md R28). -/
theorem State.writeReg_frame {s u : State} {v : Word} {r : Reg} (h : s.writeReg v r = some u) :
    ∃ d e n a m, u = { s with delim := d, groupEn := e, interval := n, sensId := a, sensM := m } := by
  rcases State.writeReg_cases h with ⟨_, rfl⟩ | ⟨_, rfl⟩ | ⟨g, _, rfl⟩ | ⟨i, _, rfl⟩
  all_goals exact ⟨_, _, _, _, _, rfl⟩

@[simp] theorem State.emitIfOpen_crc (s : State) (b : Byte) : (s.emitIfOpen b).crc = s.crc := by
  unfold State.emitIfOpen State.emit
  repeat' split
  all_goals rfl

/-- An emission does not fold: only `send_byte` does (spec/40_framer.md R47 to R49). -/
@[simp] theorem State.transmit_crc (s : State) (out : List Byte) : (s.transmit out).crc = s.crc := by
  induction out generalizing s with
  | nil => rfl
  | cons b out ih => rw [State.transmit_cons, ih, State.emitIfOpen_crc]

/-- The trailer is not folded, and a frame that ends leaves CRC as it is (spec/40_framer.md R54). -/
theorem State.endFrame_crc (s : State) : s.endFrame.crc = s.crc :=
  calc s.endFrame.crc = s.sendTrailer.crc := rfl
    _ = s.crc := by rw [State.sendTrailer_eq_transmit, State.transmit_crc]

theorem State.closeFrame_crc (s : State) : s.closeFrame.crc = s.crc := by
  unfold State.closeFrame
  split
  · rfl
  · exact s.endFrame_crc
  · exact s.endFrame_crc

theorem exec_fend_crc {s t : State} (h : exec .fend s = .next t) : t.crc = s.crc := by
  rw [exec_fend] at h
  rcases inRun_cases h with ⟨_, rfl⟩ | ⟨_, rfl⟩
  · exact s.closeFrame_crc
  · rfl

/-! ### Each element has its writers (spec/10_state.md R22) -/

/-- Settles O17: each form of a command's effect names what it touches, and FEND, alone among the framer commands,
does not fold. -/
theorem onlyListedCommandsWrite : Obligations.OnlyListedCommandsWrite := by
  intro i s t h
  cases exec_effect h with
  | answer => simp
  | @frame i s u hi _ hu st d =>
    have hcrc : u.crc = s.crc ∨ i = .fbegin ∨ ∃ bs, dataBytes i = some bs := by
      rcases hi with hi | rfl | hi
      · exact .inr (.inl hi)
      · left
        simpa using exec_fend_crc h
      · exact .inr (.inr hi)
    obtain ⟨f, c, bs, a, n, rfl⟩ := hu
    simp [hi, hcrc]
  | pass => simp [State.passTick_eq]
  | select => simp [State.passTick_eq]
  | health => simp
  | poll => simp
  | write _ _ hu =>
    obtain ⟨d, e, n, a, m, rfl⟩ := State.writeReg_frame hu
    simp
  | run => simp

/-! ### MODE and the configuration (spec/10_state.md R8, spec/20_memory.md R34) -/

/-- A command that changes MODE is an INIT that finds DELIM valid, and it enters RUN. -/
theorem Effect.mode_cases {i : Instr} {s t : State} (h : Effect i s t) :
    t.mode = s.mode ∨ (i = .init ∧ delimValid s.delim = true ∧ t.mode = .run) := by
  cases h with
  | run _ hd => exact .inr ⟨rfl, hd, rfl⟩
  | frame _ _ hu => obtain ⟨f, c, bs, a, n, rfl⟩ := hu; exact .inl rfl
  | write _ _ hu => obtain ⟨d, e, n, a, m, rfl⟩ := State.writeReg_frame hu; exact .inl rfl
  | answer | pass | select | health | poll => exact .inl rfl

/-- In RUN mode no command touches the configuration. -/
theorem Effect.config_frozen {i : Instr} {s t : State} (h : Effect i s t) (hrun : s.mode = .run) :
    t.delim = s.delim ∧ t.groupEn = s.groupEn ∧ t.interval = s.interval ∧ t.sensId = s.sensId ∧
      t.sensM = s.sensM := by
  cases h with
  | write hm => rw [hm] at hrun; cases hrun
  | frame _ _ hu => obtain ⟨f, c, bs, a, n, rfl⟩ := hu; exact ⟨rfl, rfl, rfl, rfl, rfl⟩
  | answer | pass | select | health | poll | run => exact ⟨rfl, rfl, rfl, rfl, rfl⟩

/-- RUN is entered only by the command INIT with a valid DELIM. -/
theorem step_enters_run {s t : State} (h : step s = .next t) (hs : s.mode = .config) (ht : t.mode = .run) :
    ∃ w rest, s.inputs = .command w :: rest ∧ decode w = .ok .init ∧ delimValid s.delim = true := by
  rcases step_cases h with ⟨_, rfl⟩ | ⟨rest, _, rfl⟩ | ⟨w, rest, i, hin, hdec, hexec⟩ | ⟨w, rest, e, _, _, rfl⟩
  · cases hs.symm.trans ht
  · cases ht
  · rcases (exec_effect hexec).mode_cases with hm | ⟨rfl, hd, _⟩
    · cases hs.symm.trans (hm.symm.trans ht)
    · exact ⟨w, rest, hin, hdec, hd⟩
  · cases hs.symm.trans ht

/-- RUN is left only by the reset event. -/
theorem step_leaves_run {s t : State} (h : step s = .next t) (hs : s.mode = .run) (ht : t.mode = .config) :
    ∃ rest, s.inputs = .reset :: rest := by
  rcases step_cases h with ⟨_, rfl⟩ | ⟨rest, hin, _⟩ | ⟨w, rest, i, _, _, hexec⟩ | ⟨w, rest, e, _, _, rfl⟩
  · cases hs.symm.trans ht
  · exact ⟨rest, hin⟩
  · rcases (exec_effect hexec).mode_cases with hm | ⟨_, _, hm⟩
    · cases hs.symm.trans (hm.symm.trans ht)
    · cases hm.symm.trans ht
  · cases hs.symm.trans ht

/-- Settles O16: only a command can enter RUN and only the reset can leave it; in RUN every step but the reset leaves
the configuration frozen. -/
theorem modeAndConfigurationDiscipline : Obligations.ModeAndConfigurationDiscipline := by
  intro s t h
  refine ⟨step_enters_run h, step_leaves_run h, fun hrun hno => ?_⟩
  rcases step_cases h with ⟨_, rfl⟩ | ⟨rest, hin, _⟩ | ⟨w, rest, i, _, _, hexec⟩ | ⟨w, rest, e, _, _, rfl⟩
  · exact ⟨rfl, rfl, rfl, rfl, rfl⟩
  · exact absurd hin (hno rest)
  · exact (exec_effect hexec).config_frozen hrun
  · exact ⟨rfl, rfl, rfl, rfl, rfl⟩

/-! ### WIRE (spec/10_state.md R19) -/

theorem exec_wire_append {i : Instr} {s t : State} (h : exec i s = .next t) : ∃ bs, t.wire = s.wire ++ bs := by
  obtain ⟨bs, _, hwire, _⟩ := noCommandReadsTheWire i s t [] [] [] h
  exact ⟨bs, hwire⟩

/-- Settles O18: a command appends to WIRE, and the other steps leave it alone. -/
theorem wireIsAppendOnly : Obligations.WireIsAppendOnly := by
  intro s t h
  rcases step_cases h with ⟨_, rfl⟩ | ⟨rest, _, rfl⟩ | ⟨w, rest, i, _, _, hexec⟩ | ⟨w, rest, e, _, _, rfl⟩
  · exact ⟨[], by simp⟩
  · exact ⟨[], by simp⟩
  · exact exec_wire_append (s := { s with inputs := rest }) hexec
  · exact ⟨[], by simp⟩

/-! ### Disabled groups (spec/10_state.md R14) -/

/-- Only an enabled group is ever due (spec/42_scheduler.md R68, R70). -/
theorem State.due_enabled {s : State} {t : Time} {g : Group} (h : s.due t = some g) :
    s.groupEn.getLsbD g.val = true := by
  rw [State.due_eq] at h
  split at h
  case isTrue htrig =>
    injection h with h
    subst h
    exact ((State.triggered_iff s).mp htrig).1
  case isFalse => exact (State.select_sound h).1.1

/-- `DisabledUntouched` speaks of GROUP_EN, LAST and HEALTH_PREV alone. -/
theorem State.DisabledUntouched.congr {s t : State} (h : s.DisabledUntouched) (he : t.groupEn = s.groupEn)
    (hl : t.last = s.last) (hp : t.healthPrev = s.healthPrev) : t.DisabledUntouched := by
  unfold State.DisabledUntouched
  rw [he, hl, hp]
  exact h

/-- With every timer and HEALTH_PREV at its reset value it does not matter which groups are enabled. -/
theorem State.disabledUntouched_of_fresh {s : State} (hl : s.last = Vector.replicate 11 0) (hp : s.healthPrev = 0) :
    s.DisabledUntouched :=
  ⟨fun g _ => by rw [hl]; simp, fun _ => hp⟩

/-- Selecting an enabled group writes the timer of no disabled one, and HEALTH_PREV only if group 3 is enabled. -/
theorem State.DisabledUntouched.markSent {s : State} (h : s.DisabledUntouched) {g : Group}
    (hg : s.groupEn.getLsbD g.val = true) (t : Time) : (s.markSent t g).DisabledUntouched := by
  obtain ⟨hlast, hprev⟩ := h
  constructor
  · intro k hk
    rw [State.markSent_groupEn] at hk
    have hne : g.val ≠ k.val := fun heq => by
      rw [heq, hk] at hg
      cases hg
    simpa [Vector.getElem_set_ne, hne] using hlast k hk
  · intro hk
    rw [State.markSent_groupEn] at hk
    have hne : g ≠ hw.healthGroup := fun heq => by
      rw [heq, hw_healthGroup_val, hk] at hg
      cases hg
    simpa [hne] using hprev hk

/-- Every command keeps it: TICK marks a due group, which is enabled, and GROUP_EN changes only in CONFIG mode, where
every timer still holds its reset value. -/
theorem Effect.keeps_disabledUntouched {i : Instr} {s t : State} (h : Effect i s t) (hinv : s.Inv)
    (hdis : s.DisabledUntouched) : t.DisabledUntouched := by
  cases h with
  | select _ hg =>
    have hpass : s.passTick.DisabledUntouched := hdis.congr rfl rfl rfl
    exact (hpass.markSent (State.due_enabled hg) _).congr rfl rfl rfl
  | write hm _ hu =>
    obtain ⟨_, _, _, hlast, _, hprev, _⟩ := hinv.config_fresh hm
    obtain ⟨d, e, n, a, m, rfl⟩ := State.writeReg_frame hu
    exact State.disabledUntouched_of_fresh hlast hprev
  | frame _ _ hu => obtain ⟨f, c, bs, a, n, rfl⟩ := hu; exact hdis.congr rfl rfl rfl
  | answer | pass | health | poll | run => exact hdis.congr rfl rfl rfl

/-- Taking an input off the list touches nothing that `Inv` speaks of. -/
theorem State.Inv.withInputs {s : State} (h : s.Inv) (ins : List Input) : State.Inv { s with inputs := ins } :=
  ⟨h.config_fresh, h.run_delim, h.rr_range⟩

/-- Settles O22: a command keeps it by its effect, and the reset makes every timer fresh. -/
theorem stepKeepsDisabledGroupsUntouched : Obligations.StepKeepsDisabledGroupsUntouched := by
  intro s t hinv hdis h
  rcases step_cases h with ⟨_, rfl⟩ | ⟨rest, _, rfl⟩ | ⟨w, rest, i, _, _, hexec⟩ | ⟨w, rest, e, _, _, rfl⟩
  · exact hdis
  · exact State.disabledUntouched_of_fresh rfl rfl
  · exact (exec_effect hexec).keeps_disabledUntouched (hinv.withInputs rest) (hdis.congr rfl rfl rfl)
  · exact hdis.congr rfl rfl rfl

end Sys2Proof.Machine
end

section
/-! SUPPORT. The command port (spec/20_memory.md section 3): one command at a time, in the order issued. -/

namespace Sys2Proof.Machine

/-- Settles O5: with a command at the head of the list (R31) whose word decodes (spec/30_encoding.md R38(b)), the
step takes its branch of execution. -/
theorem stepRunsDecodedCommand : Obligations.StepRunsDecodedCommand := by
  intro s w rest i hin hdec
  unfold step
  rw [hin]
  simp only [hdec]

end Sys2Proof.Machine
end

section
/-! SUPPORT. The decoder and the encoder (spec/30_encoding.md R35 to R38, R41): each row of the opcode map said once,
for both directions of the round trip and for the words the decoder rejects. -/

namespace Sys2Proof

/-! ### The opcode map (spec/30_encoding.md R36) -/

/-- The fourteen opcodes of the map. -/
def definedOpcodes : List Byte :=
  [0x01, 0x02, 0x03, 0x04, 0x05, 0x10, 0x11, 0x12, 0x20, 0x21, 0x22, 0x30, 0x31, 0x32]

/-- The fields of `w` are those of a command in its row of the opcode map. -/
inductive Decodes (w : CmdWord) : Instr → Prop where
  | fbegin (ho : opcField w = 0x01) : Decodes w .fbegin
  | fbyte {b : Byte} (ho : opcField w = 0x02) (ha : aField w = b) : Decodes w (.fbyte b)
  | fw16 {hdr : Byte} {id value : Half} (ho : opcField w = 0x03) (ha : aField w = hdr) (hb : bField w = id)
    (hc : cLowField w = value) : Decodes w (.fw16 hdr id value)
  | fw32 {hdr : Byte} {id : Half} {value : Word} (ho : opcField w = 0x04) (ha : aField w = hdr) (hb : bField w = id)
    (hc : cField w = value) : Decodes w (.fw32 hdr id value)
  | fend (ho : opcField w = 0x05) : Decodes w .fend
  | pack {i : Byte} {value : Word} (ho : opcField w = 0x10) (ha : aField w = i) (hc : cField w = value) :
    Decodes w (.pack i value)
  | unpack {i : Byte} {word : Word} (ho : opcField w = 0x11) (ha : aField w = i) (hc : cField w = word) :
    Decodes w (.unpack i word)
  | dsplit {k : Byte} {value : Word} (ho : opcField w = 0x12) (ha : aField w = k) (hc : cField w = value) :
    Decodes w (.dsplit k value)
  | tick {chunkPending : Bool} (ho : opcField w = 0x20) (ha : a0Field w = chunkPending) :
    Decodes w (.tick chunkPending)
  | sethm {mask : Word} (ho : opcField w = 0x21) (hc : cField w = mask) : Decodes w (.sethm mask)
  | poll {b : Byte} (ho : opcField w = 0x22) (ha : aField w = b) : Decodes w (.poll b)
  | cfgwr {reg : Byte} {value : Word} (ho : opcField w = 0x30) (ha : aField w = reg) (hc : cField w = value) :
    Decodes w (.cfgwr reg value)
  | cfgrd {reg : Byte} (ho : opcField w = 0x31) (ha : aField w = reg) : Decodes w (.cfgrd reg)
  | init (ho : opcField w = 0x32) : Decodes w .init

/-- The decoder answers the command whose row the word meets. -/
theorem Decodes.decode_eq {w : CmdWord} {i : Instr} (h : Decodes w i) : decode w = .ok i := by
  cases h <;> simp_all [decode]

theorem Decodes.opcode_mem {w : CmdWord} {i : Instr} (h : Decodes w i) : opcField w ∈ definedOpcodes := by
  cases h <;> simp_all [definedOpcodes]

/-- A word whose opcode has no row is an error that names the opcode (spec/30_encoding.md R38(a)). -/
theorem decode_of_undefined {w : CmdWord} (h : opcField w ∉ definedOpcodes) :
    decode w = .error (.undefinedOpcode (opcField w)) := by
  have hne : ∀ o ∈ definedOpcodes, (opcField w).toNat ≠ o.toNat :=
    fun o ho heq => h (BitVec.eq_of_toNat_eq heq ▸ ho)
  simp only [definedOpcodes, List.forall_mem_cons] at hne
  unfold decode
  split
  case h_15 => rfl
  all_goals simp_all

/-- A word whose opcode has a row is its command. -/
theorem decodes_of_defined {w : CmdWord} (h : opcField w ∈ definedOpcodes) : ∃ i, Decodes w i := by
  simp only [definedOpcodes, List.mem_cons, List.not_mem_nil, or_false] at h
  rcases h with h | h | h | h | h | h | h | h | h | h | h | h | h | h
  · exact ⟨_, .fbegin h⟩
  · exact ⟨_, .fbyte h rfl⟩
  · exact ⟨_, .fw16 h rfl rfl rfl⟩
  · exact ⟨_, .fw32 h rfl rfl rfl⟩
  · exact ⟨_, .fend h⟩
  · exact ⟨_, .pack h rfl rfl⟩
  · exact ⟨_, .unpack h rfl rfl⟩
  · exact ⟨_, .dsplit h rfl rfl⟩
  · exact ⟨_, .tick h rfl⟩
  · exact ⟨_, .sethm h rfl⟩
  · exact ⟨_, .poll h rfl⟩
  · exact ⟨_, .cfgwr h rfl rfl⟩
  · exact ⟨_, .cfgrd h rfl⟩
  · exact ⟨_, .init h⟩

/-- All the decoder can do: the command of the word's row, or the error that names an opcode of no row. -/
theorem decode_cases (w : CmdWord) :
    (∃ i, decode w = .ok i ∧ Decodes w i) ∨
    (decode w = .error (.undefinedOpcode (opcField w)) ∧ opcField w ∉ definedOpcodes) := by
  by_cases h : opcField w ∈ definedOpcodes
  · obtain ⟨i, hi⟩ := decodes_of_defined h
    exact .inl ⟨i, hi.decode_eq, hi⟩
  · exact .inr ⟨decode_of_undefined h, h⟩

theorem decode_eq_ok_iff {w : CmdWord} {i : Instr} : decode w = .ok i ↔ Decodes w i := by
  refine ⟨fun h => ?_, Decodes.decode_eq⟩
  rcases decode_cases w with ⟨j, hj, hrow⟩ | ⟨herr, _⟩
  · rw [hj] at h
    injection h with h
    exact h ▸ hrow
  · cases herr.symm.trans h

theorem decode_eq_error_iff {w : CmdWord} {e : DecodeError} :
    decode w = .error e ↔ opcField w ∉ definedOpcodes ∧ e = .undefinedOpcode (opcField w) := by
  rcases decode_cases w with ⟨j, hj, hrow⟩ | ⟨herr, hopc⟩
  · simp [hj, hrow.opcode_mem]
  · simp [herr, hopc, eq_comm]

/-! ### The two round trips -/

/-- A 16-bit value in the low half of C is read back (spec/30_encoding.md R37). -/
theorem cLowField_assemble_setWidth (o a : Byte) (b value : Half) :
    cLowField (assemble o a b (value.setWidth 32)) = value := by
  rw [cLowField_assemble, BitVec.setWidth_setWidth_of_le _ (by decide), BitVec.setWidth_eq]

/-- A bit in A[0] is read back (spec/30_encoding.md R37). -/
theorem a0Field_assemble_ofBool (o : Byte) (x : Bool) (b : Half) (c : Word) :
    a0Field (assemble o ((BitVec.ofBool x).setWidth 8) b c) = x := by
  rw [a0Field_assemble]
  cases x <;> rfl

/-- The encoded word meets the command's row. -/
theorem decodes_encode (i : Instr) : Decodes (encode i) i := by
  have ho o a b c := opcField_assemble o a b c
  have ha o a b c := aField_assemble o a b c
  have hb o a b c := bField_assemble o a b c
  have hc o a b c := cField_assemble o a b c
  cases i with
  | fbegin => exact .fbegin (ho ..)
  | fbyte b => exact .fbyte (ho ..) (ha ..)
  | fw16 hdr id value => exact .fw16 (ho ..) (ha ..) (hb ..) (cLowField_assemble_setWidth ..)
  | fw32 hdr id value => exact .fw32 (ho ..) (ha ..) (hb ..) (hc ..)
  | fend => exact .fend (ho ..)
  | pack i value => exact .pack (ho ..) (ha ..) (hc ..)
  | unpack i word => exact .unpack (ho ..) (ha ..) (hc ..)
  | dsplit k value => exact .dsplit (ho ..) (ha ..) (hc ..)
  | tick chunkPending => exact .tick (ho ..) (a0Field_assemble_ofBool ..)
  | sethm mask => exact .sethm (ho ..) (hc ..)
  | poll b => exact .poll (ho ..) (ha ..)
  | cfgwr reg value => exact .cfgwr (ho ..) (ha ..) (hc ..)
  | cfgrd reg => exact .cfgrd (ho ..) (ha ..)
  | init => exact .init (ho ..)

/-- Settles O1: the encoded word meets the row of its command, which the decoder answers. -/
theorem decodeEncodeRoundTrip : Obligations.DecodeEncodeRoundTrip :=
  fun i => (decodes_encode i).decode_eq

/-- A[0] is the low bit of A. -/
theorem a0Field_eq (w : CmdWord) : a0Field w = (aField w).getLsbD 0 := by
  simp [a0Field, aField]

/-- C[15:0] is the low half of C. -/
theorem cLowField_eq (w : CmdWord) : cLowField w = (cField w).setWidth 16 := by
  rw [BitVec.setWidth_eq_extractLsb' (by decide), cField, BitVec.extractLsb'_extractLsb'_of_le (by decide), cLowField]

/-- The mask of TICK keeps the low bit of A. -/
theorem aField_and_one (w : CmdWord) : aField w &&& 1 = (BitVec.ofBool (a0Field w)).setWidth 8 := by
  rw [a0Field_eq]
  exact BitVec.and_one_eq_setWidth_ofBool_getLsbD

/-- The mask of FW16 keeps the low half of C. -/
theorem cField_and_lowHalf (w : CmdWord) : cField w &&& 0xFFFF = (cLowField w).setWidth 32 := by
  rw [cLowField_eq]
  apply BitVec.eq_of_toNat_eq
  calc (cField w &&& 0xFFFF).toNat = (cField w).toNat % 2 ^ 16 := Nat.and_two_pow_sub_one_eq_mod _ 16
    _ = (((cField w).setWidth 16).setWidth 32).toNat := by
      rw [BitVec.toNat_setWidth, BitVec.toNat_setWidth]
      omega

/-- Masking a word is masking its fields. -/
theorem and_assemble (w : CmdWord) (o a : Byte) (b : Half) (c : Word) :
    w &&& assemble o a b c = assemble (opcField w &&& o) (aField w &&& a) (bField w &&& b) (cField w &&& c) := by
  rw [← assemble_and, assemble_fields]

/-- The used bits of a word, field by field, are those of its command's encoding (spec/30_encoding.md R36, R37). -/
theorem Decodes.encode_eq {w : CmdWord} {i : Instr} (h : Decodes w i) : encode i = w &&& Machine.usedBits i := by
  have hmask {o a : Byte} {b : Half} {c : Word} (hm : Machine.usedBits i = assemble o a b c) :
      w &&& Machine.usedBits i =
        assemble (opcField w &&& o) (aField w &&& a) (bField w &&& b) (cField w &&& c) := by
    rw [hm, and_assemble]
  have hall {n : Nat} (x : BitVec n) : x &&& .allOnes n = x := BitVec.and_allOnes
  have hzero {n : Nat} (x : BitVec n) : x &&& 0 = 0 := BitVec.and_zero
  cases h with
  | fbegin ho | fend ho | init ho =>
    rw [hmask (show _ = assemble (.allOnes 8) 0 0 0 from rfl)]
    simp only [encode, hall, hzero, ho]
  | fbyte ho ha | poll ho ha | cfgrd ho ha =>
    rw [hmask (show _ = assemble (.allOnes 8) (.allOnes 8) 0 0 from rfl)]
    simp only [encode, hall, hzero, ho, ha]
  | pack ho ha hc | unpack ho ha hc | dsplit ho ha hc | cfgwr ho ha hc =>
    rw [hmask (show _ = assemble (.allOnes 8) (.allOnes 8) 0 (.allOnes 32) from rfl)]
    simp only [encode, hall, hzero, ho, ha, hc]
  | sethm ho hc =>
    rw [hmask (show _ = assemble (.allOnes 8) 0 0 (.allOnes 32) from rfl)]
    simp only [encode, hall, hzero, ho, hc]
  | fw16 ho ha hb hc =>
    rw [hmask (show _ = assemble (.allOnes 8) (.allOnes 8) (.allOnes 16) 0xFFFF from rfl)]
    simp only [encode, hall, cField_and_lowHalf, ho, ha, hb, hc]
  | fw32 ho ha hb hc =>
    rw [hmask (show _ = assemble (.allOnes 8) (.allOnes 8) (.allOnes 16) (.allOnes 32) from rfl)]
    simp only [encode, hall, ho, ha, hb, hc]
  | tick ho ha =>
    rw [hmask (show _ = assemble (.allOnes 8) 1 0 0 from rfl)]
    simp only [encode, hall, hzero, aField_and_one, ho, ha]

/-- Settles O2: the decoded word meets the command's row, where the encoding is the word masked field by field. -/
theorem encodeDecodeKeepsUsedBits : Obligations.EncodeDecodeKeepsUsedBits :=
  fun _ _ h => (decode_eq_ok_iff.mp h).encode_eq

/-! ### The undefined opcodes (spec/30_encoding.md R38(a)) -/

theorem opcField_toNat (w : CmdWord) : (opcField w).toNat = w.toNat / 2 ^ 56 := by
  have hlt : w.toNat < 2 ^ 64 := w.isLt
  rw [opcField, BitVec.extractLsb'_toNat, Nat.shiftRight_eq_div_pow]
  omega

/-- The bytes that are no opcode of the map. -/
theorem not_mem_definedOpcodes_iff (o : Byte) : o ∉ definedOpcodes ↔
    o.toNat = 0 ∨ (0x06 ≤ o.toNat ∧ o.toNat ≤ 0x0F) ∨ (0x13 ≤ o.toNat ∧ o.toNat ≤ 0x1F) ∨
      (0x23 ≤ o.toNat ∧ o.toNat ≤ 0x2F) ∨ 0x33 ≤ o.toNat := by
  revert o; decide

/-- Settles O3: the decoder rejects an opcode of no row, and the ranges of R38(a) hold the other 242 bytes. -/
theorem decodeRejectsUndefinedOpcodes : Obligations.DecodeRejectsUndefinedOpcodes := by
  intro w
  refine ⟨?_, fun e h => (decode_eq_error_iff.mp h).2⟩
  rw [← opcField, decode_eq_error_iff, and_iff_left rfl, not_mem_definedOpcodes_iff, opcField_toNat]

/-! ### The words the spec writes out (spec/30_encoding.md R41) -/

/-- Settles O4: the words are the encodings of their commands, but for one TICK, which has unused bits of A set, and a
PACK operand written as a negative number: those two meet their rows. -/
theorem specExampleWordsDecode : Obligations.SpecExampleWordsDecode :=
  ⟨decodeEncodeRoundTrip .fbegin, decodeEncodeRoundTrip (.fbyte 0x7E), decodeEncodeRoundTrip (.fw16 0x10 0x0210 1),
    decodeEncodeRoundTrip (.fw32 0x10 0x5006 0x001FF9C2), Decodes.decode_eq (.pack rfl rfl (by decide)),
    decodeEncodeRoundTrip (.tick true), Decodes.decode_eq (.tick rfl rfl),
    decodeEncodeRoundTrip (.cfgwr 0x13 1000)⟩

end Sys2Proof
end

section
/-! SUPPORT. The responses (spec/30_encoding.md R38(a), R39, R40): the one response of each command, and the response
word. -/

namespace Sys2Proof.Machine

/-! ### The response word (spec/30_encoding.md R39) -/

theorem responseWord_toNat (r : Response) :
    (responseWord r).toNat = (statusCode r.status).toNat * 2 ^ 32 + r.data.toNat := by
  rw [responseWord, BitVec.toNat_append, ← Nat.shiftLeft_add_eq_or_of_lt r.data.isLt, Nat.shiftLeft_eq]

/-- Settles O14: STATUS_CODE stands above DATA, and each status has its code. -/
theorem responseWordHasTheSpecsCodes : Obligations.ResponseWordHasTheSpecsCodes := by
  intro r
  rw [responseWord_toNat]
  obtain ⟨st, d⟩ := r
  cases st <;> rfl

/-! ### The undefined opcodes (spec/30_encoding.md R38(a)) -/

/-- Settles O6: an opcode of no row does not decode, and the step takes its branch of rejection. -/
theorem undefinedOpcodeAnswersIllegal : Obligations.UndefinedOpcodeAnswersIllegal := by
  intro s w rest hin hopc
  have hdec : decode w = .error (.undefinedOpcode (opcField w)) := decode_of_undefined hopc
  unfold step
  rw [hin]
  simp only [hdec]
  rfl

/-! ### Which command gives which response (spec/30_encoding.md R39, R40) -/

/-- The responses a command can give in a state: the table of statuses of R39 with the DATA of R40. -/
inductive Gives : Instr → State → Response → Prop where
  | ok (i : Instr) (s : State) (d : Word) : Gives i s ⟨.ok, d⟩
  | illegal (i : Instr) (s : State) : Gives i s ⟨.illegal, 0⟩
  /-- No group is due. -/
  | noGroup (c : Bool) (s : State) : Gives (.tick c) s ⟨.none, 0⟩
  /-- No slot has the poll byte. -/
  | noSlot (b : Byte) (s : State) : Gives (.poll b) s ⟨.none, 0⟩
  | chunk (s : State) : Gives (.tick true) s ⟨.chunk, 0⟩
  | notReady (c : Bool) (s : State) : Gives (.tick c) s ⟨.notReady, 0⟩
  | abandoned {i : Instr} (hi : isFramer i) (s : State) (d : Word) : Gives i s ⟨.abandoned, d⟩
  | initFail {s : State} (hm : s.mode = .config) (hd : delimValid s.delim = false) : Gives .init s ⟨.initFail, 0⟩
  | seqErr {i : Instr} (hi : i = .fend ∨ ∃ bs, dataBytes i = some bs) (s : State) : Gives i s ⟨.seqErr, 0⟩

/-- From `s` to `t` the command adds one response, and it is one the command gives. -/
def Answered (i : Instr) (s t : State) : Prop := ∃ r, t.responses = s.responses ++ [r] ∧ Gives i s r

theorem Gives.answered {i : Instr} {s u : State} {st : Status} {d : Word} (h : Gives i s ⟨st, d⟩)
    (hu : u.responses = s.responses) : Answered i s (u.respond st d) :=
  ⟨⟨st, d⟩, by rw [State.respond_responses, hu], h⟩

theorem State.Emits.responses {s t : State} (h : s.Emits t) : t.responses = s.responses := by
  obtain ⟨f, c, bs, a, d, rfl⟩ := h
  rfl

/-- A framer command that has emitted answers OK or ABANDONED. -/
theorem gives_frameStatus {i : Instr} (hi : isFramer i) (s : State) (f : FState) (d : Word) :
    Gives i s ⟨frameStatus f, d⟩ := by
  cases f with
  | opened => exact .ok ..
  | idle | abandoned => exact .abandoned hi ..

theorem answered_framed {i : Instr} (hi : isFramer i) {s : State} {body : State → State} (h : s.Emits (body s)) :
    Answered i s (s.framed body) :=
  (gives_frameStatus hi ..).answered h.responses

theorem answered_sendBytes {i : Instr} {bs : List Byte} (hi : dataBytes i = some bs) (s : State) :
    Answered i s (s.inFrame fun s => s.sendBytes bs) := by
  have hframer : isFramer i := .inr (.inr ⟨bs, hi⟩)
  rcases s.inFrame_cases (fun s => s.sendBytes bs) with ⟨_, h⟩ | ⟨_, h⟩ | ⟨_, h⟩ <;> rw [h]
  · exact (Gives.seqErr (.inr ⟨bs, hi⟩) s).answered rfl
  · exact (Gives.abandoned hframer s 0).answered rfl
  · exact answered_framed hframer (s.emits_sendBytes bs)

theorem answered_closeFrame (s : State) : Answered .fend s s.closeFrame := by
  have hend : Answered .fend s s.endFrame := answered_framed (.inr (.inl rfl)) s.emits_sendTrailer
  unfold State.closeFrame
  split
  · exact (Gives.seqErr (.inl rfl) s).answered rfl
  · exact hend
  · exact hend

theorem answered_tickOutcome (c : Bool) (s : State) : Answered (.tick c) s (s.tickOutcome c) := by
  unfold State.tickOutcome
  split
  · exact (Gives.notReady c s).answered rfl
  · split
    case isTrue hc => subst hc; exact (Gives.chunk s).answered rfl
    case isFalse =>
      unfold State.decideGroup
      split
      · exact (Gives.noGroup c s).answered rfl
      · exact (Gives.ok _ s _).answered rfl

theorem answered_answerPoll (b : Byte) (s : State) : Answered (.poll b) s (s.answerPoll b) := by
  unfold State.answerPoll
  split
  · exact (Gives.noSlot b s).answered rfl
  · exact (Gives.ok _ s _).answered rfl

theorem answered_configure (a : Byte) (v : Word) (s : State) : Answered (.cfgwr a v) s (s.configure a v) := by
  unfold State.configure
  split
  · exact (Gives.illegal _ s).answered rfl
  case h_2 u hu =>
    obtain ⟨r, _, hwrite⟩ := Option.bind_eq_some_iff.mp hu
    obtain ⟨d, e, n, a, m, rfl⟩ := State.writeReg_frame hwrite
    exact (Gives.ok _ s 0).answered rfl

theorem answered_enterRun {s : State} (hm : s.mode = .config) : Answered .init s s.enterRun := by
  unfold State.enterRun
  split
  case isTrue => exact (Gives.ok _ s 0).answered rfl
  case isFalse hd => exact (Gives.initFail hm (Bool.eq_false_iff.mpr hd)).answered rfl

/-- The command goes to a next state with one more response, one that it gives. -/
def Answers (i : Instr) (s : State) : Prop := ∃ t, exec i s = .next t ∧ Answered i s t

theorem answers_of_respond {i : Instr} {s : State} {st : Status} {d : Word} (hg : Gives i s ⟨st, d⟩)
    (h : exec i s = .next (s.respond st d)) : Answers i s :=
  ⟨_, h, hg.answered rfl⟩

theorem answers_of_inRun {i : Instr} {s : State} {body : State → State} (hb : Answered i s (body s))
    (h : exec i s = inRun s body) : Answers i s := by
  cases hm : s.mode with
  | run => exact ⟨_, h.trans (inRun_run hm body), hb⟩
  | config => exact answers_of_respond (.illegal ..) (h.trans (inRun_config hm body))

theorem answers_of_inConfig {i : Instr} {s : State} {body : State → State}
    (hb : s.mode = .config → Answered i s (body s)) (h : exec i s = inConfig s body) : Answers i s := by
  cases hm : s.mode with
  | config => exact ⟨_, h.trans (inConfig_config hm body), hb hm⟩
  | run => exact answers_of_respond (.illegal ..) (h.trans (inConfig_run hm body))

/-- Every command answers. -/
theorem exec_answers (i : Instr) (s : State) : Answers i s := by
  have hdata {bs : List Byte} (hi : dataBytes i = some bs) : Answers i s :=
    answers_of_inRun (answered_sendBytes hi s) (exec_dataBytes hi s)
  cases i with
  | fbyte b => exact hdata rfl
  | fw16 hdr id v => exact hdata rfl
  | fw32 hdr id v => exact hdata rfl
  | fbegin => exact answers_of_inRun (answered_framed (.inl rfl) s.emits_beginFrame) (exec_fbegin s)
  | fend => exact answers_of_inRun (answered_closeFrame s) (exec_fend s)
  | pack i v =>
    cases hf : fieldRow i with
    | none => exact answers_of_respond (.illegal ..) (exec_pack_illegal hf v s)
    | some f => exact answers_of_respond (.ok ..) (exec_pack hf v s)
  | unpack i v =>
    cases hf : fieldRow i with
    | none => exact answers_of_respond (.illegal ..) (exec_unpack_illegal hf v s)
    | some f => exact answers_of_respond (.ok ..) (exec_unpack hf v s)
  | dsplit k v =>
    rcases Nat.lt_or_ge 4 k.toNat with hk | hk
    · exact answers_of_respond (.illegal ..) (exec_dsplit_illegal hk v s)
    · exact answers_of_respond (.ok ..) (exec_dsplit hk v s)
  | tick c => exact answers_of_inRun (answered_tickOutcome c s) (exec_tick c s)
  | sethm m => exact answers_of_inRun ((Gives.ok _ s 0).answered rfl) (exec_sethm m s)
  | poll b => exact answers_of_inRun (answered_answerPoll b s) (exec_poll b s)
  | cfgwr a v => exact answers_of_inConfig (fun _ => answered_configure a v s) (exec_cfgwr a v s)
  | cfgrd a =>
    cases hr : regOfIndex a with
    | none => exact answers_of_respond (.illegal ..) (exec_cfgrd_illegal hr s)
    | some r => exact answers_of_respond (.ok ..) (exec_cfgrd hr s)
  | init => exact answers_of_inConfig answered_enterRun (exec_init s)

/-- No step stops: each input is idle, a reset, a command, or a word that is rejected. -/
theorem exists_step (s : State) : ∃ t, step s = .next t := by
  unfold step
  split
  · exact ⟨_, rfl⟩
  · exact ⟨_, rfl⟩
  · split
    · obtain ⟨t, h, _⟩ := exec_answers _ _
      exact ⟨t, h⟩
    · exact ⟨_, rfl⟩

/-- Settles O11: a command answers, and so does a step. -/
theorem everyCommandAnswersOnce : Obligations.EveryCommandAnswersOnce := by
  refine ⟨fun i s => ?_, exists_step⟩
  obtain ⟨t, h, r, hr, _⟩ := exec_answers i s
  exact ⟨t, r, h, hr⟩

/-- The response a command has added is one that it gives. -/
theorem gives_of_exec {i : Instr} {s t : State} {r : Response} (h : exec i s = .next t)
    (hr : t.responses = s.responses ++ [r]) : Gives i s r := by
  obtain ⟨u, hu, q, hq, hgives⟩ := exec_answers i s
  rw [hu] at h
  injection h with h
  subst h
  have hqr : [q] = [r] := List.append_cancel_left (hq.symm.trans hr)
  injection hqr with hqr
  exact hqr ▸ hgives

/-- Settles O13: each line holds of every response a command gives. -/
theorem statusesComeFromTheirCommands : Obligations.StatusesComeFromTheirCommands := by
  intro i s t r h hr
  cases gives_of_exec h hr with
  | ok | illegal | noGroup | noSlot | chunk | notReady => simp
  | abandoned hi => simp [hi]
  | initFail hm hd => simp [hm, hd]
  | seqErr hi => simp [hi]

end Sys2Proof.Machine
end

section
/-! SUPPORT. The frame on the wire (spec/30_encoding.md section 6): what each framer command does when the transport
accepts its bytes, and the complete frame that a list of commands puts on WIRE (R42). -/

namespace Sys2Proof.Machine

/-! ### Commands whose bytes are accepted -/

/-- A framer command that emits `out` and leaves the frame open answers OK with the number of bytes. -/
theorem State.framed_opened {s u : State} {body : State → State} {out : List Byte} (hbody : body s = u)
    (ho : u.fstate = .opened) (hwire : u.wire = s.wire ++ out) :
    s.framed body = u.respond .ok (BitVec.ofNat 32 out.length) := by
  rw [State.framed, hbody, ho, sentCount_append hwire]
  rfl

/-- FBEGIN, START accepted (spec/40_framer.md R50). -/
theorem exec_fbegin_accepted {s : State} (hm : s.mode = .run) (hr : s.readyAt 0 = true) :
    exec .fbegin s = .next
      { s with
        crc := hw.crc.init, fstate := .opened, wire := s.wire ++ [startByte s.delim],
        answers := s.answers.drop 1, draws := s.draws + 1, responses := s.responses ++ [⟨.ok, 1⟩] } := by
  rw [exec_fbegin, inRun_run hm, State.framed_opened (State.beginFrame_accepted hr) rfl rfl]
  rfl

/-- A data command in an open frame, every byte accepted (spec/40_framer.md R51 to R53). -/
theorem exec_data_accepted {i : Instr} {bs : List Byte} {s : State} (hi : dataBytes i = some bs) (hm : s.mode = .run)
    (ho : s.fstate = .opened) (ha : s.acceptsNext (stuffAll s.delim bs).length) :
    exec i s = .next
      { s with
        crc := foldBytes s.crc bs, wire := s.wire ++ stuffAll s.delim bs,
        answers := s.answers.drop (stuffAll s.delim bs).length,
        draws := s.draws + (stuffAll s.delim bs).length,
        responses := s.responses ++ [⟨.ok, BitVec.ofNat 32 (stuffAll s.delim bs).length⟩] } := by
  rw [exec_dataBytes hi, inRun_run hm, State.inFrame_opened ho,
    State.framed_opened (body := fun s => s.sendBytes bs) (State.sendBytes_accepted ho ha) ho rfl]
  rfl

/-- FEND in an open frame, every byte accepted (spec/40_framer.md R54). -/
theorem exec_fend_accepted {s : State} (hm : s.mode = .run) (ho : s.fstate = .opened)
    (ha : s.acceptsNext (endBytes s.delim s.crc).length) :
    exec .fend s = .next
      { s with
        fstate := .idle, wire := s.wire ++ endBytes s.delim s.crc,
        answers := s.answers.drop (endBytes s.delim s.crc).length,
        draws := s.draws + (endBytes s.delim s.crc).length,
        responses := s.responses ++ [⟨.ok, BitVec.ofNat 32 (endBytes s.delim s.crc).length⟩] } := by
  have hend := (State.sendTrailer_eq_transmit s).trans (State.transmit_accepted ho ha)
  have hclose : s.closeFrame = s.endFrame := by simp [State.closeFrame, ho]
  rw [exec_fend, inRun_run hm, hclose, State.endFrame,
    State.framed_opened (body := State.sendTrailer) hend ho rfl]
  rfl

/-! ### What was sent -/

/-- From `s` to `t` exactly the bytes `out` went on WIRE, one transport answer taken for each, in the same mode and with
the same DELIM. -/
structure Sent (s t : State) (out : List Byte) : Prop where
  mode : t.mode = s.mode
  delim : t.delim = s.delim
  wire : t.wire = s.wire ++ out
  answers : t.answers = s.answers.drop out.length
  draws : t.draws = s.draws + out.length

theorem Sent.refl (s : State) : Sent s s [] := ⟨rfl, rfl, by simp, rfl, rfl⟩

theorem Sent.trans {s t u : State} {out more : List Byte} (h : Sent s t out) (h' : Sent t u more) :
    Sent s u (out ++ more) where
  mode := h'.mode.trans h.mode
  delim := h'.delim.trans h.delim
  wire := by rw [h'.wire, h.wire, List.append_assoc]
  answers := by rw [h'.answers, h.answers, List.drop_drop, List.length_append]
  draws := by rw [h'.draws, h.draws, List.length_append, Nat.add_assoc]

/-- The bytes after those sent are still accepted. -/
theorem Sent.acceptsNext {s t : State} {out more : List Byte} (h : Sent s t out)
    (ha : s.acceptsNext (out ++ more).length) : t.acceptsNext more.length :=
  State.acceptsNext_shift h.answers h.draws (List.length_append ▸ ha)

theorem State.acceptsNext_left {s : State} {out more : List Byte} (ha : s.acceptsNext (out ++ more).length) :
    s.acceptsNext out.length :=
  State.acceptsNext_mono (List.length_append ▸ Nat.le_add_right ..) ha

theorem exec_fbegin_sent {s : State} (hm : s.mode = .run) (ha : s.acceptsNext [startByte s.delim].length) :
    ∃ t, exec .fbegin s = .next t ∧ Sent s t [startByte s.delim] ∧ t.fstate = .opened ∧ t.crc = hw.crc.init :=
  ⟨_, exec_fbegin_accepted hm (ha 0 Nat.one_pos), ⟨rfl, rfl, rfl, rfl, rfl⟩, rfl, rfl⟩

theorem exec_data_sent {i : Instr} {bs : List Byte} {s : State} (hi : dataBytes i = some bs) (hm : s.mode = .run)
    (ho : s.fstate = .opened) (ha : s.acceptsNext (stuffAll s.delim bs).length) :
    ∃ t, exec i s = .next t ∧ Sent s t (stuffAll s.delim bs) ∧ t.fstate = .opened ∧ t.crc = foldBytes s.crc bs :=
  ⟨_, exec_data_accepted hi hm ho ha, ⟨rfl, rfl, rfl, rfl, rfl⟩, ho, rfl⟩

theorem exec_fend_sent {s : State} (hm : s.mode = .run) (ho : s.fstate = .opened)
    (ha : s.acceptsNext (endBytes s.delim s.crc).length) :
    ∃ t, exec .fend s = .next t ∧ Sent s t (endBytes s.delim s.crc) ∧ t.fstate = .idle :=
  ⟨_, exec_fend_accepted hm ho ha, ⟨rfl, rfl, rfl, rfl, rfl⟩, rfl⟩

/-! ### Commands one after the other -/

theorem execAll_cons {i : Instr} {rest : List Instr} {s t : State} (h : exec i s = .next t) :
    execAll (i :: rest) s = execAll rest t := by
  simp [execAll, h]

theorem execAll_append {is js : List Instr} {s t : State} (h : execAll is s = .next t) :
    execAll (is ++ js) s = execAll js t := by
  induction is generalizing s with
  | nil =>
    injection h with h
    rw [h, List.nil_append]
  | cons i is ih =>
    obtain ⟨u, hu, _⟩ := exec_answers i s
    rw [execAll_cons hu] at h
    rw [List.cons_append, execAll_cons hu, ih h]

/-- Data commands in an open frame, every byte accepted, send and fold all their bytes, and the frame stays open. -/
theorem execAll_data_sent {cmds : List Instr} {data : List (List Byte)} {s : State}
    (hcmds : cmds.map dataBytes = data.map some) (hm : s.mode = .run) (ho : s.fstate = .opened)
    (ha : s.acceptsNext (stuffAll s.delim data.flatten).length) :
    ∃ t, execAll cmds s = .next t ∧ Sent s t (stuffAll s.delim data.flatten) ∧ t.fstate = .opened ∧
      t.crc = foldBytes s.crc data.flatten := by
  induction cmds generalizing data s with
  | nil =>
    obtain rfl : data = [] := by simpa using hcmds.symm
    exact ⟨s, rfl, .refl s, ho, rfl⟩
  | cons i cmds ih =>
    cases data with
    | nil => cases hcmds
    | cons bs data =>
      obtain ⟨hi, hcmds⟩ := List.cons.inj hcmds
      simp only [List.flatten_cons, stuffAll_append, foldBytes_append] at ha ⊢
      obtain ⟨t, hexec, hsent, hopen, hcrc⟩ := exec_data_sent hi hm ho (State.acceptsNext_left ha)
      have hrest : t.acceptsNext (stuffAll t.delim data.flatten).length := hsent.delim ▸ hsent.acceptsNext ha
      obtain ⟨u, hexecs, hsents, hopen', hcrc'⟩ := ih hcmds (hsent.mode.trans hm) hopen hrest
      rw [hsent.delim] at hsents
      exact ⟨u, (execAll_cons hexec).trans hexecs, hsent.trans hsents, hopen', hcrc ▸ hcrc'⟩

/-! ### The complete frame (spec/30_encoding.md R42) -/

/-- A frame in the three parts that FBEGIN, the data commands and FEND send. -/
theorem frameBytes_eq (d : Word) (bs : List Byte) :
    frameBytes d bs = [startByte d] ++ (stuffAll d bs ++ endBytes d (foldBytes hw.crc.init bs)) := rfl

/-- FBEGIN, data commands and FEND, every byte accepted, send the complete frame and
leave no frame open. -/
theorem execAll_frame_sent {s : State} {cmds : List Instr} {data : List (List Byte)} (hm : s.mode = .run)
    (hcmds : cmds.map dataBytes = data.map some) (ha : s.acceptsNext (frameBytes s.delim data.flatten).length) :
    ∃ t, execAll (.fbegin :: (cmds ++ [.fend])) s = .next t ∧ Sent s t (frameBytes s.delim data.flatten) ∧
      t.fstate = .idle := by
  rw [frameBytes_eq] at ha ⊢
  obtain ⟨t, hbegin, hsent, hopen, hcrc⟩ := exec_fbegin_sent hm (State.acceptsNext_left ha)
  have hmt : t.mode = .run := hsent.mode.trans hm
  have hat := hsent.acceptsNext ha
  obtain ⟨u, hdata, hsentd, hopen', hcrc'⟩ :=
    execAll_data_sent hcmds hmt hopen (hsent.delim ▸ State.acceptsNext_left hat)
  rw [hsent.delim] at hsentd
  rw [hcrc] at hcrc'
  have hdelim : u.delim = s.delim := hsentd.delim.trans hsent.delim
  have hau : u.acceptsNext (endBytes u.delim u.crc).length := by
    rw [hdelim, hcrc']
    exact hsentd.acceptsNext hat
  obtain ⟨v, hend, hsente, hidle⟩ := exec_fend_sent (hsentd.mode.trans hmt) hopen' hau
  rw [hdelim, hcrc'] at hsente
  refine ⟨v, ?_, hsent.trans (hsentd.trans hsente), hidle⟩
  rw [execAll_cons hbegin, execAll_append hdata, execAll_cons hend, execAll]

theorem stuffAll_length (d : Word) (bs : List Byte) :
    bs.length ≤ (stuffAll d bs).length ∧ (stuffAll d bs).length ≤ 2 * bs.length := by
  induction bs with
  | nil => simp
  | cons b bs ih =>
    have hb := stuff_length d b
    simp only [stuffAll_cons, List.length_append, List.length_cons]
    omega

/-- START and STOP, and one or two bytes for each data byte and each of the two trailer bytes. -/
theorem frameBytes_length (d : Word) (bs : List Byte) :
    4 + bs.length ≤ (frameBytes d bs).length ∧ (frameBytes d bs).length ≤ 2 + 2 * (bs.length + 2) := by
  have hdata := stuffAll_length d bs
  have htrailer := stuffAll_length d (trailerBytes (foldBytes hw.crc.init bs))
  have htwo : (trailerBytes (foldBytes hw.crc.init bs)).length = 2 := rfl
  simp only [frameBytes, endBytes, List.length_cons, List.length_append, List.length_nil]
  omega

/-- Settles O31: FBEGIN, then by induction the data commands, then FEND each send their part of the frame. -/
theorem completeFrameGoesOnTheWire : Obligations.CompleteFrameGoesOnTheWire := by
  intro s cmds data hm hcmds ha
  obtain ⟨t, hexec, hsent, hidle⟩ := execAll_frame_sent hm hcmds ha
  exact ⟨t, hexec, hsent.wire, hidle, frameBytes_length s.delim data.flatten⟩

end Sys2Proof.Machine
end

section
/-! SUPPORT. The CRC (spec/40_framer.md R45): one shift is linear and loses nothing, hence the residue of a sequence
with its own trailer, and no two sequences that differ in one byte have the same CRC. -/

namespace Sys2Proof.Machine

/-! ### One shift -/

theorem crcShift_eq (c : BitVec 16) : crcShift c = (c >>> 1) ^^^ bif c.getLsbD 0 then 0x8408 else 0 := by
  unfold crcShift
  cases c.getLsbD 0 <;> simp

theorem crcShift_xor (c e : BitVec 16) : crcShift (c ^^^ e) = crcShift c ^^^ crcShift e := by
  have hpoly : ∀ x y : Bool, (bif x ^^ y then (0x8408 : BitVec 16) else 0) =
      (bif x then 0x8408 else 0) ^^^ bif y then 0x8408 else 0 := by decide
  simp only [crcShift_eq, BitVec.getLsbD_xor, BitVec.ushiftRight_xor_distrib, hpoly]
  ac_rfl

theorem crcShift_of_even {c : BitVec 16} (h : c.getLsbD 0 = false) : crcShift c = c >>> 1 :=
  if_neg (Bool.eq_false_iff.mp h)

/-- The polynomial has its top bit set: after a shift the top bit is the one that was shifted out. -/
theorem crcShift_top (c : BitVec 16) : (crcShift c).getLsbD 15 = c.getLsbD 0 := by
  rw [crcShift_eq]
  cases c.getLsbD 0 <;> simp

theorem crcShift_injective : Function.Injective crcShift := by
  intro c e h
  have hlow : c.getLsbD 0 = e.getLsbD 0 := by rw [← crcShift_top, h, crcShift_top]
  have hrest : c >>> 1 = e >>> 1 := by
    rw [crcShift_eq, crcShift_eq, hlow] at h
    exact (BitVec.xor_left_inj _).mp h
  apply BitVec.eq_of_getLsbD_eq
  intro k _
  cases k with
  | zero => exact hlow
  | succ k => simpa [Nat.add_comm] using congrArg (·.getLsbD k) hrest

/-! ### The eight shifts of one byte -/

theorem crcShift_iterate_xor (n : Nat) (c e : BitVec 16) :
    crcShift^[n] (c ^^^ e) = crcShift^[n] c ^^^ crcShift^[n] e := by
  induction n generalizing c e with
  | zero => rfl
  | succ n ih => simp only [Function.iterate_succ_apply, crcShift_xor, ih]

/-- Shifting out zeros never meets the polynomial. -/
theorem crcShift_iterate_of_zeros {n : Nat} {c : BitVec 16} (h : ∀ k < n, c.getLsbD k = false) :
    crcShift^[n] c = c >>> n := by
  induction n generalizing c with
  | zero => simp
  | succ n ih =>
    have hnext : ∀ k < n, (c >>> 1).getLsbD k = false := fun k hk => by
      rw [BitVec.getLsbD_ushiftRight]
      exact h _ (by omega)
    rw [Function.iterate_succ_apply, crcShift_of_even (h 0 (Nat.succ_pos n)), ih hnext, ← BitVec.shiftRight_add,
      Nat.add_comm]

/-- A fold depends on the XOR of accumulator and byte only, and loses nothing of it. -/
theorem crcFold_eq_iff {c e : Crc} {b x : Byte} :
    hw.crc.fold c b = hw.crc.fold e x ↔ c ^^^ b.setWidth 16 = e ^^^ x.setWidth 16 := by
  change crcFold c b = crcFold e x ↔ _
  rw [crcFold_eq_iterate, crcFold_eq_iterate]
  exact (crcShift_injective.iterate 8).eq_iff

theorem crcFold_left_injective (b : Byte) : Function.Injective (hw.crc.fold · b) :=
  fun _ _ h => (BitVec.xor_left_inj _).mp (crcFold_eq_iff.mp h)

theorem crcFold_right_injective (c : Crc) : Function.Injective (hw.crc.fold c) := by
  intro b x h
  have hwide : b.setWidth 16 = x.setWidth 16 := (BitVec.xor_right_inj _).mp (crcFold_eq_iff.mp h)
  simpa using congrArg (BitVec.setWidth 8) hwide

/-! ### The residue of a sequence with its own trailer -/

/-- The trailer is the final CRC, low byte first (spec/40_framer.md R54). -/
theorem trailerBytes_eq_iff {c : Crc} {lo hi : Byte} : trailerBytes c = [lo, hi] ↔ hw.crc.final c = hi ++ lo := by
  rw [trailerBytes]
  constructor
  · intro h
    injection h with hlo h
    injection h with hhi
    rw [← hlo, ← hhi]
    exact (BitVec.extractLsb'_append_extractLsb' (w := 8) (len := 8)).symm
  · intro h
    rw [h]
    exact congrArg₂ (fun l h => [l, h]) BitVec.extractLsb'_append_eq_right BitVec.extractLsb'_append_eq_left

theorem crcFinal_eq (c : Crc) : hw.crc.final c = ~~~c := BitVec.xor_allOnes

theorem not_xor_self (b : Byte) : ~~~b ^^^ b = 0xFF := by
  rw [← BitVec.not_xor_left, BitVec.xor_self]
  rfl

theorem setWidth_byte (b : Byte) : b.setWidth 16 = (0 : Byte) ++ b :=
  BitVec.setWidth_eq_append (by decide)

/-- Folding the complement of the accumulator's low byte: what is left of the accumulator is its high byte. -/
theorem crcFold_complement_low (hi lo : Byte) :
    hw.crc.fold (hi ++ ~~~lo) lo = ((0 : Byte) ++ hi) ^^^ hw.crc.fold 0 0xFF := by
  have hsplit : (hi ++ ~~~lo) ^^^ lo.setWidth 16 = (hi ++ (0 : Byte)) ^^^ (0xFF : Byte).setWidth 16 := by
    rw [setWidth_byte, setWidth_byte, BitVec.xor_append, BitVec.xor_append, not_xor_self]
    rfl
  have hhigh : crcShift^[8] (hi ++ (0 : Byte)) = (0 : Byte) ++ hi := by
    have hzeros : ∀ k < 8, (hi ++ (0 : Byte)).getLsbD k = false := fun k hk => by
      rw [BitVec.getLsbD_append, if_pos hk]
      exact BitVec.getLsbD_zero
    rw [crcShift_iterate_of_zeros hzeros]
    refine (BitVec.ushiftRight_eq_extractLsb'_of_lt (by decide)).trans ?_
    exact congrArg ((0 : Byte) ++ ·) BitVec.extractLsb'_append_eq_left
  change crcFold _ lo = _ ^^^ crcFold 0 0xFF
  rw [crcFold_eq_iterate, crcFold_eq_iterate, hsplit, crcShift_iterate_xor, hhigh]
  rfl

/-- Folding the complement of the accumulator's high byte, which stands low by then. -/
theorem crcFold_complement_high (k : Crc) (hi : Byte) :
    hw.crc.fold (((0 : Byte) ++ ~~~hi) ^^^ k) hi = hw.crc.fold k 0xFF := by
  rw [crcFold_eq_iff, setWidth_byte, setWidth_byte]
  calc ((0 : Byte) ++ ~~~hi) ^^^ k ^^^ ((0 : Byte) ++ hi)
      = k ^^^ (((0 : Byte) ++ ~~~hi) ^^^ ((0 : Byte) ++ hi)) := by ac_rfl
    _ = k ^^^ ((0 : Byte) ++ (0xFF : Byte)) := by
      rw [BitVec.xor_append, not_xor_self]
      rfl

theorem foldBytes_trailerBytes (c : Crc) : foldBytes c (trailerBytes c) = 0xF0B8 := by
  obtain ⟨lo, hi, htrailer⟩ : ∃ lo hi, trailerBytes c = [lo, hi] := ⟨_, _, rfl⟩
  have hc : c = ~~~hi ++ ~~~lo := by
    have hfinal : ~~~c = hi ++ lo := (crcFinal_eq c).symm.trans (trailerBytes_eq_iff.mp htrailer)
    rw [← BitVec.not_append, ← hfinal, BitVec.not_not]
  calc foldBytes c (trailerBytes c)
      = hw.crc.fold (hw.crc.fold (~~~hi ++ ~~~lo) lo) hi := by rw [htrailer, hc]; rfl
    _ = hw.crc.fold (hw.crc.fold 0 0xFF) 0xFF := by rw [crcFold_complement_low, crcFold_complement_high]
    _ = 0xF0B8 := by decide +kernel

/-- The bytes with their trailer: what a frame has between START and STOP before stuffing, the sequence `u` of
spec/40_framer.md R56. -/
def withTrailer (bs : List Byte) : List Byte := bs ++ trailerBytes (foldBytes hw.crc.init bs)

theorem foldBytes_withTrailer (bs : List Byte) : foldBytes hw.crc.init (withTrailer bs) = 0xF0B8 := by
  rw [withTrailer, foldBytes_append, foldBytes_trailerBytes]

/-- Settles O35: the residue for all bytes, and the two known values by evaluation. -/
theorem crcResidueIsConstant : Obligations.CrcResidueIsConstant :=
  ⟨foldBytes_withTrailer, by decide +kernel, by decide +kernel⟩

/-! ### One wrong byte -/

theorem foldBytes_left_injective (bs : List Byte) : Function.Injective (foldBytes · bs) := by
  induction bs with
  | nil => exact fun _ _ h => h
  | cons b bs ih => exact ih.comp (crcFold_left_injective b)

/-- One byte replaced by a different value changes the fold. -/
theorem foldBytes_set_ne {bs : List Byte} {j : Nat} {b : Byte} (c : Crc) (hj : bs[j]? ≠ none) (hb : bs[j]? ≠ some b) :
    foldBytes c (bs.set j b) ≠ foldBytes c bs := by
  induction bs generalizing c j with
  | nil => simp at hj
  | cons x bs ih =>
    cases j with
    | zero =>
      intro h
      have hbx : b = x := crcFold_right_injective c (foldBytes_left_injective bs h)
      simp [hbx] at hb
    | succ j => exact ih (hw.crc.fold c x) hj hb

end Sys2Proof.Machine
end

section
/-! SUPPORT. The framer commands (spec/40_framer.md R50 to R54): what each does when a byte is refused or the frame is
already abandoned, and that WIRE and CRC keep the same account of an open frame. -/

namespace Sys2Proof.Machine

/-! ### Refused bytes -/

/-- A framer command after whose emissions the frame is abandoned answers ABANDONED with the number of bytes that got
out (spec/60_exceptions.md R88). -/
theorem State.framed_abandoned {s u : State} {body : State → State} {out : List Byte} (hbody : body s = u)
    (ho : u.fstate = .abandoned) (hwire : u.wire = s.wire ++ out) :
    s.framed body = u.respond .abandoned (BitVec.ofNat 32 out.length) := by
  rw [State.framed, hbody, ho, sentCount_append hwire]
  rfl

/-- FBEGIN, START refused (spec/40_framer.md R50). -/
theorem exec_fbegin_refused {s : State} (hm : s.mode = .run) (hr : s.readyAt 0 = false) :
    exec .fbegin s = .next
      { s with
        crc := hw.crc.init, fstate := .abandoned, answers := s.answers.drop 1, draws := s.draws + 1,
        responses := s.responses ++ [⟨.abandoned, 0⟩] } := by
  rw [exec_fbegin, inRun_run hm,
    State.framed_abandoned (out := []) (State.beginFrame_refused hr) rfl (List.append_nil _).symm]
  rfl

/-- A data command in an open frame, byte `k` of its stuffed bytes refused (spec/40_framer.md R51 to R53). -/
theorem exec_data_refused {i : Instr} {bs : List Byte} {s : State} {k : Nat} (hi : dataBytes i = some bs)
    (hm : s.mode = .run) (ho : s.fstate = .opened) (hk : k < (stuffAll s.delim bs).length) (hr : s.refusesAt k) :
    exec i s = .next
      { s with
        crc := foldBytes s.crc (bytesTried s.delim bs k), fstate := .abandoned,
        wire := s.wire ++ (stuffAll s.delim bs).take k, answers := s.answers.drop (k + 1),
        draws := s.draws + (k + 1), responses := s.responses ++ [⟨.abandoned, BitVec.ofNat 32 k⟩] } := by
  rw [exec_dataBytes hi, inRun_run hm, State.inFrame_opened ho,
    State.framed_abandoned (body := fun s => s.sendBytes bs) (State.sendBytes_refused ho hk hr) rfl rfl,
    List.length_take_of_le hk.le]
  rfl

theorem State.closeFrame_of_ne_idle {s : State} (h : s.fstate ≠ .idle) : s.closeFrame = s.endFrame := by
  unfold State.closeFrame
  split
  · exact absurd ‹_› h
  · rfl
  · rfl

/-- FEND in an open frame, byte `k` of trailer and STOP refused (spec/40_framer.md R54). -/
theorem exec_fend_refused {s : State} {k : Nat} (hm : s.mode = .run) (ho : s.fstate = .opened)
    (hk : k < (endBytes s.delim s.crc).length) (hr : s.refusesAt k) :
    exec .fend s = .next
      { s with
        fstate := .idle, wire := s.wire ++ (endBytes s.delim s.crc).take k, answers := s.answers.drop (k + 1),
        draws := s.draws + (k + 1), responses := s.responses ++ [⟨.abandoned, BitVec.ofNat 32 k⟩] } := by
  have hend := (State.sendTrailer_eq_transmit s).trans (State.transmit_refused ho hk hr)
  rw [exec_fend, inRun_run hm, State.closeFrame_of_ne_idle (by simp [ho]), State.endFrame,
    State.framed_abandoned (body := State.sendTrailer) hend rfl rfl, List.length_take_of_le hk.le]
  rfl

/-- FEND in an abandoned frame: the emissions are those of no byte (spec/40_framer.md R54(d)). -/
theorem exec_fend_abandoned {s : State} (hm : s.mode = .run) (ha : s.fstate = .abandoned) :
    exec .fend s = .next { s with fstate := .idle, responses := s.responses ++ [⟨.abandoned, 0⟩] } := by
  have hend : s.sendTrailer = s := (State.sendTrailer_eq_transmit s).trans (State.transmit_of_ne (by simp [ha]) _)
  rw [exec_fend, inRun_run hm, State.closeFrame_of_ne_idle (by simp [ha]), State.endFrame,
    State.framed_abandoned (out := []) hend ha (List.append_nil _).symm]
  rfl

/-! ### The commands one by one -/

/-- Settles O23: START is accepted or refused. -/
theorem fbeginStartsAFrame : Obligations.FbeginStartsAFrame :=
  fun _ hm => ⟨exec_fbegin_accepted hm, exec_fbegin_refused hm⟩

/-- Settles O24: a data command in an open frame is its data bytes sent, all of them accepted. -/
theorem dataCommandSendsStuffedBytes : Obligations.DataCommandSendsStuffedBytes :=
  fun _ _ _ => exec_data_accepted

/-- Settles O25: the sending of the data bytes stops at the refused byte. -/
theorem dataCommandAbandonsAtRefusedByte : Obligations.DataCommandAbandonsAtRefusedByte :=
  fun _ _ _ _ => exec_data_refused

/-- Settles O26: the guard of a data command answers before anything is sent. -/
theorem dataCommandSuppressedWhenAbandoned : Obligations.DataCommandSuppressedWhenAbandoned := by
  intro i bs s hi hm ha
  rw [exec_dataBytes hi, inRun_run hm, State.inFrame_abandoned ha]
  rfl

/-- Settles O28: FEND in an open frame attempts stuffed trailer and STOP, all of them accepted. -/
theorem fendClosesTheFrame : Obligations.FendClosesTheFrame :=
  fun _ => exec_fend_accepted

/-- Settles O29: the attempt stops at the refused byte, and FSTATE becomes IDLE all the same. -/
theorem fendAbandonsAtRefusedByte : Obligations.FendAbandonsAtRefusedByte :=
  fun _ _ => exec_fend_refused

/-- Settles O30: in an abandoned frame FEND's emissions change nothing. -/
theorem fendLeavesAbandonedFrame : Obligations.FendLeavesAbandonedFrame :=
  fun _ => exec_fend_abandoned

/-! ### The account of an open frame (spec/40_framer.md R48 to R50) -/

/-- `FrameOnWire` speaks of FSTATE, WIRE, DELIM and CRC alone. -/
theorem State.FrameOnWire.congr {s t : State} (h : s.FrameOnWire) (hf : t.fstate = s.fstate) (hwire : t.wire = s.wire)
    (hd : t.delim = s.delim) (hc : t.crc = s.crc) : t.FrameOnWire := by
  unfold State.FrameOnWire
  rw [hf, hwire, hd, hc]
  exact h

/-- There is nothing to account for while no frame is open. -/
theorem State.frameOnWire_of_ne {s : State} (h : s.fstate ≠ .opened) : s.FrameOnWire := fun ho => absurd ho h

/-- FBEGIN opens an empty frame, or none. -/
theorem State.frameOnWire_beginFrame (s : State) : s.beginFrame.FrameOnWire := by
  cases hr : s.readyAt 0 with
  | true =>
    rw [State.beginFrame_accepted hr]
    exact fun _ => ⟨s.wire, [], rfl, rfl⟩
  | false =>
    rw [State.beginFrame_refused hr]
    exact State.frameOnWire_of_ne (by simp)

/-- Bytes sent in an open frame extend its data; a refused byte ends the account. -/
theorem State.FrameOnWire.sendBytes {s : State} (h : s.FrameOnWire) (ho : s.fstate = .opened) (bs : List Byte) :
    (s.sendBytes bs).FrameOnWire := by
  rcases s.accepts_or_refuses (stuffAll s.delim bs).length with ha | ⟨k, hk, hr⟩
  · obtain ⟨before, data, hwire, hcrc⟩ := h ho
    rw [State.sendBytes_accepted ho ha]
    exact fun _ => ⟨before, data ++ bs, by simp [hwire], by simp [hcrc]⟩
  · rw [State.sendBytes_refused ho hk hr]
    exact State.frameOnWire_of_ne (by simp)

theorem State.FrameOnWire.inFrame {s : State} (h : s.FrameOnWire) (bs : List Byte) :
    (s.inFrame fun s => s.sendBytes bs).FrameOnWire := by
  rcases s.inFrame_cases fun s => s.sendBytes bs with ⟨_, hs⟩ | ⟨_, hs⟩ | ⟨ho, hs⟩ <;> rw [hs]
  · exact h.congr rfl rfl rfl rfl
  · exact h.congr rfl rfl rfl rfl
  · exact (h.sendBytes ho bs).congr rfl rfl rfl rfl

/-- After FEND no frame is open (spec/40_framer.md R54). -/
theorem State.closeFrame_fstate (s : State) : s.closeFrame.fstate = .idle := by
  unfold State.closeFrame
  split
  · assumption
  · rfl
  · rfl

/-- A framer command in RUN mode keeps the account. -/
theorem exec_framer_keeps_frameOnWire {i : Instr} {s t : State} (hi : isFramer i) (hm : s.mode = .run)
    (hf : s.FrameOnWire) (h : exec i s = .next t) : t.FrameOnWire := by
  rcases hi with rfl | rfl | ⟨bs, hbs⟩
  · rw [exec_fbegin, inRun_run hm] at h
    injection h with h
    subst h
    exact s.frameOnWire_beginFrame.congr rfl rfl rfl rfl
  · rw [exec_fend, inRun_run hm] at h
    injection h with h
    subst h
    exact State.frameOnWire_of_ne (by simp [State.closeFrame_fstate])
  · rw [exec_dataBytes hbs, inRun_run hm] at h
    injection h with h
    subst h
    exact hf.inFrame bs

/-- Every command keeps the account: DELIM, which the stuffing rests on, changes only in CONFIG mode, where no frame is
open (spec/43_system.md R81). -/
theorem exec_keeps_frameOnWire {i : Instr} {s t : State} (hinv : s.Inv) (hf : s.FrameOnWire)
    (h : exec i s = .next t) : t.FrameOnWire := by
  cases exec_effect h with
  | frame hi hm => exact exec_framer_keeps_frameOnWire hi hm hf h
  | write hm _ hu =>
    obtain ⟨hidle, _⟩ := hinv.config_fresh hm
    obtain ⟨d, e, n, a, m, rfl⟩ := State.writeReg_frame hu
    exact State.frameOnWire_of_ne (by simp [hidle])
  | answer | pass | select | health | poll | run => exact hf.congr rfl rfl rfl rfl

/-- Settles O21: a command keeps the account, and a reset leaves no frame open. -/
theorem stepKeepsFrameOnWire : Obligations.StepKeepsFrameOnWire := by
  intro s t hinv hf h
  rcases step_cases h with ⟨_, rfl⟩ | ⟨rest, _, rfl⟩ | ⟨w, rest, i, _, _, hexec⟩ | ⟨w, rest, e, _, _, rfl⟩
  · exact hf
  · exact State.frameOnWire_of_ne (by simp [State.reset])
  · exact exec_keeps_frameOnWire (hinv.withInputs rest) (hf.congr rfl rfl rfl rfl) hexec
  · exact hf.congr rfl rfl rfl rfl

end Sys2Proof.Machine
end

section
/-! SUPPORT. The complete frame (spec/40_framer.md section 4): what is between START and STOP is escape safe (R55), and
`deframe` undoes it (R56) and finds every single wrong byte (R57). -/

namespace Sys2Proof.Machine

/-! ### What INIT requires of DELIM (spec/43_system.md R83) -/

/-- Only START and STOP may be the same byte: ESC is neither. -/
theorem delimValid_esc_ne {d : Word} (h : delimValid d = true) :
    escByte d ≠ startByte d ∧ escByte d ≠ stopByte d := by
  simp only [delimValid, Bool.and_eq_true, bne_iff_ne] at h
  obtain ⟨⟨⟨⟨⟨hstart, hstop⟩, _⟩, _⟩, _⟩, _⟩ := h
  exact ⟨hstart, hstop⟩

/-- The mask takes each reserved byte out of the reserved set. -/
theorem delimValid_masked {d : Word} {b : Byte} (h : delimValid d = true) (hb : reserved d b = true) :
    reserved d (b ^^^ maskByte d) = false := by
  simp only [delimValid, Bool.and_eq_true, Bool.not_eq_true'] at h
  obtain ⟨⟨⟨_, hstart⟩, hstop⟩, hesc⟩ := h
  rcases (reserved_iff d b).mp hb with rfl | rfl | rfl
  · exact hstart
  · exact hstop
  · exact hesc

theorem ne_of_not_reserved {d : Word} {b : Byte} (h : reserved d b = false) :
    b ≠ startByte d ∧ b ≠ stopByte d ∧ b ≠ escByte d := by
  simpa [reserved_iff] using (Bool.eq_false_iff.mp h : ¬reserved d b = true)

theorem mask_mask (d : Word) (b : Byte) : b ^^^ maskByte d ^^^ maskByte d = b := by
  rw [BitVec.xor_assoc, BitVec.xor_self, BitVec.xor_zero]

/-! ### One byte at the head of a sequence -/

theorem escapeSafe_escape (d : Word) (x : Byte) (w : List Byte) :
    escapeSafe d (escByte d :: x :: w) = (!reserved d x && reserved d (x ^^^ maskByte d) && escapeSafe d w) :=
  if_pos rfl

theorem escapeSafe_bare {d : Word} {x : Byte} (h : reserved d x = false) (w : List Byte) :
    escapeSafe d (x :: w) = escapeSafe d w := by
  have ⟨_, _, hesc⟩ := ne_of_not_reserved h
  cases w <;> simp [escapeSafe, h, hesc]

theorem unescape_escape (d : Word) (x : Byte) (w : List Byte) :
    unescape d (escByte d :: x :: w) = (unescape d w).map ((x ^^^ maskByte d) :: ·) :=
  if_pos rfl

theorem unescape_bare {d : Word} {x : Byte} (h : x ≠ escByte d) (w : List Byte) :
    unescape d (x :: w) = (unescape d w).map (x :: ·) := by
  cases w <;> simp [unescape, h]

/-! ### Stuffed sequences -/

/-- A stuffed sequence is escape safe: a reserved byte goes out as an escape, any other as itself. -/
theorem escapeSafe_stuffAll {d : Word} (h : delimValid d = true) (bs : List Byte) :
    escapeSafe d (stuffAll d bs) = true := by
  induction bs with
  | nil => rfl
  | cons b bs ih =>
    rw [stuffAll_cons]
    cases hb : reserved d b with
    | true =>
      rw [stuff_of_reserved hb, List.cons_append, List.singleton_append, escapeSafe_escape,
        delimValid_masked h hb, mask_mask, hb, ih]
      rfl
    | false => rw [stuff_of_not_reserved hb, List.singleton_append, escapeSafe_bare hb, ih]

theorem ne_of_mem_stuff {d : Word} {b x : Byte} (h : delimValid d = true) (hx : x ∈ stuff d b) :
    x ≠ startByte d ∧ x ≠ stopByte d := by
  cases hb : reserved d b with
  | true =>
    rw [stuff_of_reserved hb] at hx
    rcases List.mem_pair.mp hx with rfl | rfl
    · exact delimValid_esc_ne h
    · obtain ⟨hstart, hstop, _⟩ := ne_of_not_reserved (delimValid_masked h hb)
      exact ⟨hstart, hstop⟩
  | false =>
    rw [stuff_of_not_reserved hb] at hx
    obtain rfl := List.mem_singleton.mp hx
    obtain ⟨hstart, hstop, _⟩ := ne_of_not_reserved hb
    exact ⟨hstart, hstop⟩

/-- No START and no STOP in a stuffed sequence. -/
theorem ne_of_mem_stuffAll {d : Word} {bs : List Byte} {x : Byte} (h : delimValid d = true)
    (hx : x ∈ stuffAll d bs) : x ≠ startByte d ∧ x ≠ stopByte d := by
  obtain ⟨b, _, hx⟩ := List.mem_flatMap.mp hx
  exact ne_of_mem_stuff h hx

/-- Unescaping undoes the stuffing, whatever DELIM is. -/
theorem unescape_stuffAll (d : Word) (bs : List Byte) : unescape d (stuffAll d bs) = some bs := by
  induction bs with
  | nil => rfl
  | cons b bs ih =>
    rw [stuffAll_cons]
    cases hb : reserved d b with
    | true =>
      rw [stuff_of_reserved hb, List.cons_append, List.singleton_append, unescape_escape, mask_mask, ih]
      rfl
    | false =>
      obtain ⟨_, _, hesc⟩ := ne_of_not_reserved hb
      rw [stuff_of_not_reserved hb, List.singleton_append, unescape_bare hesc, ih]
      rfl

/-! ### The complete frame -/

/-- A frame is START, the stuffed data with its trailer, and STOP. -/
theorem frameBytes_eq_withTrailer (d : Word) (bs : List Byte) :
    frameBytes d bs = startByte d :: (stuffAll d (withTrailer bs) ++ [stopByte d]) := by
  simp [frameBytes, endBytes, withTrailer]

theorem frameBytes_head? (d : Word) (bs : List Byte) : (frameBytes d bs).head? = some (startByte d) := rfl

theorem frameBytes_getLast? (d : Word) (bs : List Byte) : (frameBytes d bs).getLast? = some (stopByte d) := by
  rw [frameBytes_eq_withTrailer, ← List.cons_append, List.getLast?_concat]

theorem innerBytes_frameBytes (d : Word) (bs : List Byte) :
    innerBytes (frameBytes d bs) = stuffAll d (withTrailer bs) := by
  rw [frameBytes_eq_withTrailer, innerBytes, List.tail_cons, List.dropLast_concat]

/-- Settles O32: between START and STOP stands a stuffed sequence. -/
theorem completeFrameIsEscapeSafe : Obligations.CompleteFrameIsEscapeSafe := by
  intro d bs h
  refine ⟨frameBytes_head? d bs, frameBytes_getLast? d bs, ?_, ?_⟩
  · rw [innerBytes_frameBytes]
    exact fun b hb => ne_of_mem_stuffAll h hb
  · rw [innerBytes_frameBytes]
    exact escapeSafe_stuffAll h _

/-! ### `deframe` (spec/40_framer.md R56) -/

theorem checkTrailer_append (bs : List Byte) (lo hi : Byte) :
    checkTrailer (bs ++ [lo, hi]) =
      if hw.crc.final (foldBytes hw.crc.init bs) = hi ++ lo then some bs else none := by
  simp [checkTrailer]

theorem checkTrailer_withTrailer (bs : List Byte) : checkTrailer (withTrailer bs) = some bs := by
  obtain ⟨lo, hi, htrailer⟩ : ∃ lo hi, trailerBytes (foldBytes hw.crc.init bs) = [lo, hi] := ⟨_, _, rfl⟩
  rw [withTrailer, htrailer, checkTrailer_append, if_pos (trailerBytes_eq_iff.mp htrailer)]

/-- The check passes only data with their own trailer. -/
theorem eq_withTrailer_of_checkTrailer {u bs : List Byte} (h : checkTrailer u = some bs) : u = withTrailer bs := by
  unfold checkTrailer at h
  split at h
  · rename_i hi lo rev hu
    obtain rfl : u = rev.reverse ++ [lo, hi] := by simpa using congrArg List.reverse hu
    split at h
    · rename_i htrailer
      injection h with h
      subst h
      rw [withTrailer, trailerBytes_eq_iff.mpr htrailer]
    · cases h
  · cases h
  · cases h

theorem deframe_frameBytes (d : Word) (bs : List Byte) : deframe d (frameBytes d bs) = some bs := by
  have hlen : 2 ≤ (frameBytes d bs).length := by
    have := frameBytes_length d bs
    omega
  rw [deframe, if_pos ⟨hlen, frameBytes_head? d bs, frameBytes_getLast? d bs⟩, innerBytes_frameBytes,
    unescape_stuffAll]
  exact checkTrailer_withTrailer bs

/-- Settles O33: the commands send the complete frame, which `deframe` undoes. -/
theorem deframeRecoversTheData : Obligations.DeframeRecoversTheData := by
  intro s cmds data hm _ hcmds ha
  obtain ⟨t, hexec, hsent, _⟩ := execAll_frame_sent hm hcmds ha
  exact ⟨t, _, hexec, hsent.wire, deframe_frameBytes s.delim data.flatten⟩

/-- What `deframe` returns stands in the frame with its own trailer. -/
theorem unescape_of_deframe {d : Word} {w bs : List Byte} (h : deframe d w = some bs) :
    unescape d (innerBytes w) = some (withTrailer bs) := by
  unfold deframe at h
  split at h
  · obtain ⟨u, hu, hcheck⟩ := Option.bind_eq_some_iff.mp h
    rw [hu, eq_withTrailer_of_checkTrailer hcheck]
  · cases h

/-- Two sequences with their own trailers have the same residue, so they do not differ in one byte alone. -/
theorem set_ne_withTrailer {bs cs : List Byte} {j : Nat} {b : Byte} (hj : (withTrailer bs)[j]? ≠ none)
    (hb : (withTrailer bs)[j]? ≠ some b) : (withTrailer bs).set j b ≠ withTrailer cs := by
  intro h
  apply foldBytes_set_ne hw.crc.init hj hb
  rw [h, foldBytes_withTrailer, foldBytes_withTrailer]

/-- Settles O34: a result of `deframe` would be another sequence with its own trailer. -/
theorem singleByteCorruptionDetected : Obligations.SingleByteCorruptionDetected := by
  intro d bs j b w hj hb hu
  cases h : deframe d w with
  | none => rfl
  | some cs =>
    have hset := Option.some.inj (hu.symm.trans (unescape_of_deframe h))
    exact absurd hset (set_ne_withTrailer hj hb)

end Sys2Proof.Machine
end

section
/-! SUPPORT. The packer (spec/41_packer.md): the bounds and the order of the lanes in the FieldSpec table (R58), what
pack and unpack do to a word (R60, R61), the round trip (R64), and the split of DSPLIT (R65). -/

namespace Sys2Proof.Machine

/-! ### The FieldSpec table (R58) -/

/-- The lane has a bit, stands in the word, and holds every value up to the limit. -/
def LaneFits (f : FieldSpec) : Prop :=
  1 ≤ f.width ∧ f.offset + f.width ≤ 32 ∧ f.limit ≤ 2 ^ f.width - 1

/-- Bit `k` of the word is a bit of the lane. -/
def InLane (f : FieldSpec) (k : Nat) : Prop := f.offset ≤ k ∧ k < f.offset + f.width

theorem fieldTable_fits : ∀ f ∈ hw.fields, LaneFits f := by
  unfold LaneFits
  decide

/-- Within one word the rows stand in ascending order, each lane above the ones before it. -/
theorem fieldTable_ascends :
    hw.fields.toList.Pairwise fun f g => f.word = g.word → f.offset + f.width ≤ g.offset := by
  decide

/-- Settles O36: the columns of the table by evaluation, and the bounds that every row meets. -/
theorem fieldTableIsTheSpecs : Obligations.FieldTableIsTheSpecs := ⟨rfl, rfl, fieldTable_fits⟩

theorem laneFits_of_row {i : Nat} {f : FieldSpec} (h : hw.fields[i]? = some f) : LaneFits f :=
  fieldTable_fits f (Vector.mem_of_getElem? h)

theorem lane_below_of_lt {i j : Nat} {f g : FieldSpec} (hf : hw.fields[i]? = some f) (hg : hw.fields[j]? = some g)
    (hword : f.word = g.word) (hij : i < j) : f.offset + f.width ≤ g.offset := by
  obtain ⟨hi, rfl⟩ := Vector.getElem?_eq_some_iff.mp hf
  obtain ⟨hj, rfl⟩ := Vector.getElem?_eq_some_iff.mp hg
  exact List.pairwise_iff_getElem.mp fieldTable_ascends i j (by simpa using hi) (by simpa using hj) hij hword

/-- Two rows of one word have no bit in common. -/
theorem not_inLane_of_inLane {i j : Nat} {f g : FieldSpec} {k : Nat} (hf : hw.fields[i]? = some f)
    (hg : hw.fields[j]? = some g) (hword : g.word = f.word) (hij : i ≠ j) (hk : InLane f k) : ¬InLane g k := by
  obtain ⟨hlo, hhi⟩ := hk
  rintro ⟨hlo', hhi'⟩
  rcases Nat.lt_or_gt_of_ne hij with h | h
  · have := lane_below_of_lt hf hg hword.symm h
    omega
  · have := lane_below_of_lt hg hf hword h
    omega

theorem fieldRow_eq_none {i : Byte} (h : i.toNat > 21) : fieldRow i = none := by
  have hrow := fieldRow_isSome i
  rw [config_nField_eq, decide_eq_false (by omega)] at hrow
  simpa using hrow

/-! ### `clamp` (spec/00_scope.md section 5) -/

theorem clamp_eq_min_max {lo hi : Int} (h : lo ≤ hi) (v : Int) : clamp v lo hi = min (max v lo) hi := by
  unfold clamp
  split
  · omega
  · split <;> omega

theorem le_clamp {lo hi : Int} (h : lo ≤ hi) (v : Int) : lo ≤ clamp v lo hi := by
  rw [clamp_eq_min_max h]
  omega

theorem clamp_le {lo hi : Int} (h : lo ≤ hi) (v : Int) : clamp v lo hi ≤ hi := by
  rw [clamp_eq_min_max h]
  omega

/-- A value between the bounds is not changed. -/
theorem clamp_of_le_of_le {v lo hi : Int} (hlo : lo ≤ v) (hhi : v ≤ hi) : clamp v lo hi = v := by
  rw [clamp_eq_min_max (hlo.trans hhi), max_eq_left hlo, min_eq_left hhi]

theorem clamp_clamp {lo hi : Int} (h : lo ≤ hi) (v : Int) : clamp (clamp v lo hi) lo hi = clamp v lo hi :=
  clamp_of_le_of_le (le_clamp h v) (clamp_le h v)

/-! ### The value in the lane -/

/-- The value that `pack` puts in the lane. -/
def laneValue (f : FieldSpec) (v : Int) : Nat := (clamp v 0 f.limit).toNat

theorem laneValue_eq_min_max (f : FieldSpec) (v : Int) : laneValue f v = (min (max v 0) f.limit).toNat := by
  rw [laneValue, clamp_eq_min_max (Int.natCast_nonneg f.limit)]

theorem intCast_laneValue (f : FieldSpec) (v : Int) : (laneValue f v : Int) = clamp v 0 f.limit :=
  Int.toNat_of_nonneg (le_clamp (Int.natCast_nonneg f.limit) v)

theorem laneValue_lt {f : FieldSpec} (h : LaneFits f) (v : Int) : laneValue f v < 2 ^ f.width := by
  obtain ⟨_, _, hlimit⟩ := h
  have hle := clamp_le (Int.natCast_nonneg f.limit) v
  have hpos := Nat.two_pow_pos f.width
  rw [← intCast_laneValue] at hle
  omega

/-! ### `pack` (R60) -/

theorem packField_eq_ofNat (f : FieldSpec) (v : Int) :
    packField f v = BitVec.ofNat 32 (laneValue f v * 2 ^ f.offset) := by
  apply BitVec.eq_of_toNat_eq
  simp [packField, laneValue, Nat.shiftLeft_eq]

theorem packField_clamp (f : FieldSpec) (v : Int) : packField f (clamp v 0 f.limit) = packField f v := by
  rw [packField, clamp_clamp (Int.natCast_nonneg f.limit), packField]

/-- The shifted value still stands in the word. -/
theorem toNat_packField {f : FieldSpec} (h : LaneFits f) (v : Int) :
    (packField f v).toNat = laneValue f v * 2 ^ f.offset := by
  have ⟨_, hword, _⟩ := h
  rw [packField_eq_ofNat, BitVec.toNat_ofNat, Nat.mod_eq_of_lt]
  calc laneValue f v * 2 ^ f.offset
      < 2 ^ f.width * 2 ^ f.offset := Nat.mul_lt_mul_of_pos_right (laneValue_lt h v) (Nat.two_pow_pos _)
    _ = 2 ^ (f.offset + f.width) := by rw [← Nat.pow_add, Nat.add_comm]
    _ ≤ 2 ^ 32 := Nat.pow_le_pow_right (by decide) hword

theorem inLane_of_getLsbD_packField {f : FieldSpec} (h : LaneFits f) {v : Int} {k : Nat}
    (hk : (packField f v).getLsbD k = true) : InLane f k := by
  rw [BitVec.getLsbD, toNat_packField h, Nat.testBit_mul_two_pow, Bool.and_eq_true, decide_eq_true_iff] at hk
  obtain ⟨hlo, hbit⟩ := hk
  have hlt := (Nat.ge_two_pow_of_testBit hbit).trans_lt (laneValue_lt h v)
  have := (Nat.pow_lt_pow_iff_right Nat.one_lt_two).mp hlt
  exact ⟨hlo, by omega⟩

/-- Settles O40: a bit at or above the width would make the value in the lane too large. -/
theorem packStaysInItsLane : Obligations.PackStaysInItsLane :=
  fun f _ _ hf => inLane_of_getLsbD_packField (fieldTable_fits f hf)

/-! ### `unpack` (R61) -/

theorem toNat_unpackField {f : FieldSpec} (h : LaneFits f) (w : Word) :
    (unpackField f w).toNat = w.toNat / 2 ^ f.offset % 2 ^ f.width := by
  obtain ⟨_, hword, _⟩ := h
  have hmask : 2 ^ f.width - 1 < 2 ^ 32 :=
    (Nat.sub_lt (Nat.two_pow_pos _) Nat.one_pos).trans_le (Nat.pow_le_pow_right (by decide) (by omega))
  rw [unpackField, BitVec.toNat_and, BitVec.toNat_ushiftRight, BitVec.toNat_ofNat, Nat.mod_eq_of_lt hmask,
    Nat.and_two_pow_sub_one_eq_mod, Nat.shiftRight_eq_div_pow]

theorem unpackField_eq_ofNat {f : FieldSpec} (h : LaneFits f) (w : Word) :
    unpackField f w = BitVec.ofNat 32 (w.toNat / 2 ^ f.offset % 2 ^ f.width) := by
  rw [← toNat_unpackField h, BitVec.ofNat_toNat, BitVec.setWidth_eq]

theorem unpackField_or (f : FieldSpec) (w u : Word) :
    unpackField f (w ||| u) = unpackField f w ||| unpackField f u := by
  simp only [unpackField, BitVec.ushiftRight_or_distrib, BitVec.and_or_distrib_right]

/-- A word with no bit in the lane unpacks to zero. -/
theorem unpackField_eq_zero {f : FieldSpec} (h : LaneFits f) {w : Word}
    (hout : ∀ k, InLane f k → w.getLsbD k = false) : unpackField f w = 0#32 := by
  apply BitVec.eq_of_toNat_eq
  rw [toNat_unpackField h]
  apply Nat.eq_of_testBit_eq
  intro k
  rw [Nat.testBit_mod_two_pow, Nat.testBit_div_two_pow]
  rcases Nat.lt_or_ge k f.width with hk | hk
  · have hbit := hout (k + f.offset) ⟨by omega, by omega⟩
    rw [BitVec.getLsbD] at hbit
    simp [hbit]
  · simp [Nat.not_lt.mpr hk]

/-! ### The round trip (R64) -/

theorem toNat_unpackField_packField {f : FieldSpec} (h : LaneFits f) (v : Int) :
    (unpackField f (packField f v)).toNat = laneValue f v := by
  rw [toNat_unpackField h, toNat_packField h, Nat.mul_div_cancel _ (Nat.two_pow_pos _),
    Nat.mod_eq_of_lt (laneValue_lt h v)]

/-- Another lane of the same word holds nothing of this one. -/
theorem unpackField_packField_of_ne {i j : Nat} {f g : FieldSpec} (hf : hw.fields[i]? = some f)
    (hg : hw.fields[j]? = some g) (hword : g.word = f.word) (hij : i ≠ j) (u : Int) :
    unpackField f (packField g u) = 0#32 := by
  apply unpackField_eq_zero (laneFits_of_row hf)
  intro k hk
  apply Bool.eq_false_iff.mpr
  exact fun hbit => not_inLane_of_inLane hf hg hword hij hk (inLane_of_getLsbD_packField (laneFits_of_row hg) hbit)

/-- Settles O39: the value survives the lane, and unpacking an OR takes nothing from a lane apart from it. -/
theorem unpackInvertsPack : Obligations.UnpackInvertsPack := by
  intro i f v hf
  have hroundTrip : ((unpackField f (packField f v)).toNat : Int) = clamp v 0 f.limit := by
    rw [toNat_unpackField_packField (laneFits_of_row hf), intCast_laneValue]
  refine ⟨hroundTrip, packField_clamp f v, ?_⟩
  intro j g u hg hword hij
  rw [unpackField_or, unpackField_packField_of_ne hf hg hword hij, BitVec.or_zero]
  exact hroundTrip

/-! ### The commands (R62, R63, R66) -/

/-- Settles O37: the two answers of PACK, with the packed word as a number. -/
theorem packAnswersTheClampedLane : Obligations.PackAnswersTheClampedLane := by
  intro s i v
  constructor
  · intro f hf
    rw [exec_pack hf, packField_eq_ofNat, laneValue_eq_min_max]
    rfl
  · exact fun hi => exec_pack_illegal (fieldRow_eq_none hi) v s

/-- Settles O38: the two answers of UNPACK, with the unpacked lane as a number. -/
theorem unpackAnswersTheLane : Obligations.UnpackAnswersTheLane := by
  intro s i w
  constructor
  · intro f hf
    rw [exec_unpack hf, unpackField_eq_ofNat (laneFits_of_row hf)]
    rfl
  · exact fun hi => exec_unpack_illegal (fieldRow_eq_none hi) w s

/-- Settles O42: whether a packer command has its row, or digits enough, is in its operands, and so is its answer. -/
theorem packerDependsOnTheCommandAlone : Obligations.PackerDependsOnTheCommandAlone := by
  intro c hc
  cases c with
  | pack i v =>
    cases hf : fieldRow i with
    | none => exact ⟨_, exec_pack_illegal hf v⟩
    | some f => exact ⟨_, exec_pack hf v⟩
  | unpack i w =>
    cases hf : fieldRow i with
    | none => exact ⟨_, exec_unpack_illegal hf w⟩
    | some f => exact ⟨_, exec_unpack hf w⟩
  | dsplit k v =>
    rcases Nat.lt_or_ge 4 k.toNat with hk | hk
    · exact ⟨_, exec_dsplit_illegal hk v⟩
    · exact ⟨_, exec_dsplit hk v⟩
  | fbegin | fbyte | fw16 | fw32 | fend | tick | sethm | poll | cfgwr | cfgrd | init => cases hc

/-! ### DSPLIT (R65) -/

theorem quot_mul_add_rem (a b : Int) : quot a b * b + rem a b = a := Int.tdiv_mul_add_tmod a b

theorem abs_rem_lt {b : Int} (hb : 0 < b) (a : Int) : |rem a b| < b :=
  abs_lt.mpr ⟨Int.lt_tmod_of_pos a hb, Int.tmod_lt_of_pos a hb⟩

theorem rem_nonneg {a : Int} (ha : 0 ≤ a) (b : Int) : 0 ≤ rem a b := Int.tmod_nonneg b ha

theorem rem_nonpos {a : Int} (ha : a ≤ 0) (b : Int) : rem a b ≤ 0 := by
  have := Int.tmod_nonneg b (Int.neg_nonneg_of_nonpos ha)
  rw [Int.neg_tmod] at this
  exact Int.neg_nonneg.mp this

/-- Settles O41: the parts are the truncated quotient and its remainder. -/
theorem dsplitSplitsAtThePoint : Obligations.DsplitSplitsAtThePoint := by
  intro s k v
  constructor
  · intro hk
    refine ⟨quot v.toInt (10 ^ k.toNat), rem v.toInt (10 ^ k.toNat), (quot_mul_add_rem ..).symm,
      abs_rem_lt (by positivity) _, fun hv => rem_nonneg hv _, fun hv => rem_nonpos hv _, ?_⟩
    rw [exec_dsplit hk, splitDecimal, clamp_eq_min_max (by decide)]
    rfl
  · exact fun hk => exec_dsplit_illegal hk v s

end Sys2Proof.Machine
end

section
/-! SUPPORT. TICK and SETHM (spec/42_scheduler.md sections 1 and 2): each outcome of a tick said once (R71, R72), the
group it selects (R69, R70), the mask that the next tick notices (R73), and why an overdue group does not starve
(R104). -/

namespace Sys2Proof.Machine

/-! ### The outcomes of TICK (R71, R72) -/

theorem exec_tick_notReady {s : State} (hm : s.mode = .run) (hr : s.readyAt 0 = false) (c : Bool) :
    exec (.tick c) s = .next (s.passTick.respond .notReady 0) := by
  rw [exec_tick, inRun_run hm]
  simp [State.tickOutcome, State.txReady_eq_readyAt, hr]

theorem exec_tick_chunk {s : State} (hm : s.mode = .run) (hr : s.readyAt 0 = true) :
    exec (.tick true) s = .next (s.passTick.respond .chunk 0) := by
  rw [exec_tick, inRun_run hm]
  simp [State.tickOutcome, State.txReady_eq_readyAt, hr]

/-- With the transport ready and no chunk pending a tick comes to the choice of a group. -/
theorem exec_tick_decides {s : State} (hm : s.mode = .run) (hr : s.readyAt 0 = true) :
    exec (.tick false) s = .next (s.passTick.decideGroup s.now) := by
  rw [exec_tick, inRun_run hm]
  simp [State.tickOutcome, State.txReady_eq_readyAt, hr]

theorem exec_tick_none {s : State} (hm : s.mode = .run) (hr : s.readyAt 0 = true) (hd : s.due s.now = none) :
    exec (.tick false) s = .next (s.passTick.respond .none 0) := by
  rw [exec_tick_decides hm hr, State.decideGroup, State.due_passTick, hd]

/-- The state after a tick that selects group `g`: its timer holds the time of the tick, and group 3 takes the health
mask over. -/
def State.served (s : State) (g : Group) : State :=
  { s with
    now := s.now + 1, last := s.last.set g s.now, healthPrev := if g = 3 then s.healthCur else s.healthPrev,
    answers := s.answers.drop 1, draws := s.draws + 1,
    responses := s.responses ++ [⟨.ok, BitVec.ofNat 32 g.val⟩] }

theorem State.served_eq (s : State) (g : Group) :
    s.served g = (s.passTick.markSent s.now g).respond .ok (BitVec.ofNat 32 g.val) := by
  rw [State.served, List.drop_one]
  rfl

theorem exec_tick_serves {s : State} {g : Group} (hm : s.mode = .run) (hr : s.readyAt 0 = true)
    (hd : s.due s.now = some g) : exec (.tick false) s = .next (s.served g) := by
  rw [exec_tick_decides hm hr, State.decideGroup, State.due_passTick, hd, State.served_eq]

/-- Settles O43: the tick takes its first outcome. -/
theorem unreadyTickOnlyCountsTime : Obligations.UnreadyTickOnlyCountsTime := by
  intro s c hm hr
  rw [exec_tick_notReady hm hr, List.drop_one]
  rfl

/-- Settles O44: the tick takes its second outcome. -/
theorem pendingChunkPreemptsTheTick : Obligations.PendingChunkPreemptsTheTick := by
  intro s hm hr
  rw [exec_tick_chunk hm hr, List.drop_one]
  rfl

/-! ### The group that is due (R69, R70) -/

theorem State.due_of_triggered {s : State} (h : s.HealthTriggered) (t : Time) : s.due t = some 3 := by
  rw [State.due_eq, if_pos (s.triggered_iff.mpr h)]

theorem State.due_of_not_triggered {s : State} (h : ¬s.HealthTriggered) (t : Time) : s.due t = s.select t := by
  rw [State.due_eq, if_neg (mt s.triggered_iff.mp h)]

/-- A group is due because of the health trigger, or the rules of R69 select it. -/
theorem State.due_cases {s : State} {t : Time} {g : Group} (h : s.due t = some g) :
    (g = 3 ∧ s.HealthTriggered) ∨ s.IsSelected t g := by
  by_cases htrig : s.HealthTriggered
  · rw [State.due_of_triggered htrig] at h
    injection h with h
    exact .inl ⟨h.symm, htrig⟩
  · rw [State.due_of_not_triggered htrig] at h
    exact .inr (State.select_sound h)

theorem State.exists_due {s : State} {t : Time} {g : Group} (h : s.IsEligible t g) : ∃ k, s.due t = some k := by
  by_cases htrig : s.HealthTriggered
  · exact ⟨3, State.due_of_triggered htrig t⟩
  · rw [State.due_of_not_triggered htrig]
    refine Option.ne_none_iff_exists'.mp fun hnone => ?_
    exact (s.select_eq_none_iff t).mp hnone g h

/-- Settles O45: the trigger makes group 3 due before any timer is looked at. -/
theorem healthChangeSelectsAutopilotStatus : Obligations.HealthChangeSelectsAutopilotStatus :=
  fun _ hm hr htrig => exec_tick_serves hm hr (State.due_of_triggered htrig _)

/-- Settles O46: without a trigger the group that R69 selects is the one that is due. -/
theorem tickSelectsTheLargestOverrun : Obligations.TickSelectsTheLargestOverrun := by
  intro s g hm hr htrig hsel
  refine exec_tick_serves hm hr ?_
  rw [State.due_of_not_triggered htrig]
  exact (s.select_eq_some_iff s.now g).mpr hsel

/-- Settles O47: without a trigger and an eligible group none is due. -/
theorem tickWithNothingDueAnswersNone : Obligations.TickWithNothingDueAnswersNone := by
  intro s hm hr htrig hnone
  have hdue : s.due s.now = none := by
    rw [State.due_of_not_triggered htrig]
    exact (s.select_eq_none_iff s.now).mpr hnone
  rw [exec_tick_none hm hr hdue, List.drop_one]
  rfl

/-- Settles O48: the machine's `select` names a group that the rules name, and they name no second one. -/
theorem selectionIsUnique : Obligations.SelectionIsUnique := by
  intro s t
  refine ⟨fun ⟨g, hg⟩ => ?_, fun g h => State.isSelected_unique⟩
  have hsome : s.select t ≠ none := fun hnone => (s.select_eq_none_iff t).mp hnone g hg
  obtain ⟨k, hk⟩ := Option.ne_none_iff_exists'.mp hsome
  exact ⟨k, State.select_sound hk⟩

/-! ### A new health mask (R73) -/

theorem exec_sethm_run {s : State} (hm : s.mode = .run) (m : Word) :
    exec (.sethm m) s = .next { s with healthCur := m, responses := s.responses ++ [⟨.ok, 0⟩] } := by
  rw [exec_sethm, inRun_run hm]
  rfl

theorem decode_sethm (a : Byte) (b : Half) (m : Word) : decode (assemble 0x21 a b m) = .ok (.sethm m) :=
  (Decodes.sethm (opcField_assemble ..) (cField_assemble ..)).decode_eq

/-- Settles O50: the mask that SETHM leaves is a pending change, so the tick after it selects group 3. -/
theorem sethmWritesTheCurrentMask : Obligations.SethmWritesTheCurrentMask := by
  refine ⟨decode_sethm, fun s m hm => ⟨exec_sethm_run hm m, fun hen hne hr => ?_⟩⟩
  let u : State := { s with healthCur := m, responses := s.responses ++ [⟨.ok, 0⟩] }
  have hru : u.readyAt 0 = true := (State.readyAt_congr rfl rfl 0).trans hr
  have htick : exec (.tick false) u = .next (u.served 3) :=
    exec_tick_serves hm hru (State.due_of_triggered (s := u) ⟨hen, hne⟩ _)
  refine ⟨u.served 3, ?_, rfl, ?_⟩
  · rw [execAll_cons (exec_sethm_run hm m), execAll_cons htick, execAll]
  · exact List.append_assoc ..

/-! ### Elapsed time over one tick (R67) -/

/-- A timer that no one resets counts the tick. -/
theorem State.elapsedTicks_succ {s u : State} {g : Group} (hl : u.last[g] = s.last[g]) (t : Time) :
    u.elapsedTicks (t + 1) g = (s.elapsedTicks t g + 1) % 2 ^ 32 := by
  have ht : (t + 1).toNat = (t.toNat + 1) % 2 ^ 32 := BitVec.toNat_add t 1
  simp only [State.elapsedTicks, hl, ht]
  omega

/-- A timer reset at a tick has counted one when the next comes. -/
theorem State.elapsedTicks_of_reset {u : State} {g : Group} {t : Time} (hl : u.last[g] = t) :
    u.elapsedTicks (t + 1) g = 1 := by
  have ht : (t + 1).toNat = (t.toNat + 1) % 2 ^ 32 := BitVec.toNat_add t 1
  have hlt : t.toNat < 2 ^ 32 := t.isLt
  simp only [State.elapsedTicks, hl, ht]
  omega

theorem State.served_last_self (s : State) (g : Group) : (s.served g).last[g] = s.now := by
  simp [State.served]

theorem State.served_last_of_ne (s : State) {g h : Group} (hne : g ≠ h) : (s.served g).last[h] = s.last[h] := by
  have hval : g.val ≠ h.val := Fin.val_ne_of_ne hne
  simp [State.served, Vector.getElem_set_ne, hval]

/-! ### An overdue group does not starve (R104) -/

/-- Group `g` is overdue by at least a tick, and for the next `n` ticks the transport is ready and the group's elapsed
time does not wrap. -/
structure State.OverdueFor (s : State) (g : Group) (n : Nat) : Prop where
  running : s.mode = .run
  enabled : s.groupEn.getLsbD g.val = true
  overdue : s.interval[g].toNat < s.elapsedTicks s.now g
  noWrap : s.elapsedTicks s.now g + n < 2 ^ 32
  ready : s.acceptsNext n

/-- Group `h` may still be selected before the overdue group `g`: its timer has not been reset since `g` fell due, or
it is the one with the health trigger pending. -/
def State.Contends (s : State) (g h : Group) : Prop :=
  s.overrunTicks s.now g ≤ s.elapsedTicks s.now h ∨ (h = 3 ∧ s.HealthTriggered)

theorem State.OverdueFor.eligible {s : State} {g : Group} {n : Nat} (h : s.OverdueFor g n) : s.IsEligible s.now g :=
  ⟨h.enabled, Nat.le_of_lt h.overdue⟩

/-- No group is selected before `g` unless it contends. -/
theorem State.OverdueFor.contends_of_due {s : State} {g h : Group} {n : Nat} (hg : s.OverdueFor g n)
    (hdue : s.due s.now = some h) : s.Contends g h := by
  rcases State.due_cases hdue with htrig | ⟨_, hlargest⟩
  · exact .inr htrig
  · have hle : s.overrunTicks s.now g ≤ s.overrunTicks s.now h := by
      rcases hlargest g hg.eligible with hlt | ⟨heq, _⟩
      · exact Nat.le_of_lt hlt
      · exact Nat.le_of_eq heq
    exact .inl (hle.trans (Nat.sub_le ..))

/-- Some group is due, and it contends. -/
theorem State.OverdueFor.exists_contender {s : State} {g : Group} {n : Nat} (hg : s.OverdueFor g n) :
    ∃ h, s.due s.now = some h ∧ s.Contends g h := by
  obtain ⟨h, hdue⟩ := State.exists_due hg.eligible
  exact ⟨h, hdue, hg.contends_of_due hdue⟩

/-- While another group is served the elapsed time of `g` goes up by one. -/
theorem State.OverdueFor.elapsedTicks_served {s : State} {g h : Group} {n : Nat} (hg : s.OverdueFor g (n + 1))
    (hne : h ≠ g) : (s.served h).elapsedTicks (s.now + 1) g = s.elapsedTicks s.now g + 1 := by
  have hwrap := hg.noWrap
  rw [State.elapsedTicks_succ (s.served_last_of_ne hne), Nat.mod_eq_of_lt (by omega)]

/-- While another group is served `g` stays overdue. -/
theorem State.OverdueFor.served {s : State} {g h : Group} {n : Nat} (hg : s.OverdueFor g (n + 1)) (hne : h ≠ g) :
    (s.served h).OverdueFor g n := by
  have helapsed : (s.served h).elapsedTicks (s.served h).now g = s.elapsedTicks s.now g + 1 :=
    hg.elapsedTicks_served hne
  have hwrap := hg.noWrap
  refine ⟨hg.running, hg.enabled, ?_, ?_, ?_⟩
  · rw [helapsed]
    exact Nat.lt_succ_of_lt hg.overdue
  · omega
  · exact State.acceptsNext_shift rfl rfl (Nat.add_comm n 1 ▸ hg.ready)

/-- A group served before `g` contends no more, and none begins to: the overrun of `g` grows as fast as any elapsed
time. -/
theorem State.OverdueFor.contends_of_served {s : State} {g h k : Group} {n : Nat} (hg : s.OverdueFor g (n + 1))
    (hne : h ≠ g) (hk : (s.served h).Contends g k) : k ≠ h ∧ s.Contends g k := by
  rcases hk with hle | ⟨rfl, hen, htrig⟩
  · have hover : (s.served h).overrunTicks (s.now + 1) g = s.overrunTicks s.now g + 1 := by
      have hlt := hg.overdue
      calc (s.served h).overrunTicks (s.now + 1) g
          = s.elapsedTicks s.now g + 1 - s.interval[g].toNat := by
            rw [State.overrunTicks, hg.elapsedTicks_served hne]
            rfl
        _ = s.overrunTicks s.now g + 1 := by
            rw [State.overrunTicks]
            omega
    have hpos : 0 < s.overrunTicks s.now g := Nat.sub_pos_of_lt hg.overdue
    have hle : s.overrunTicks s.now g + 1 ≤ (s.served h).elapsedTicks (s.now + 1) k := hover ▸ hle
    rcases eq_or_ne h k with rfl | hhk
    · rw [State.elapsedTicks_of_reset (s.served_last_self h)] at hle
      omega
    · refine ⟨hhk.symm, .inl ?_⟩
      rw [State.elapsedTicks_succ (s.served_last_of_ne hhk)] at hle
      have hmod := Nat.mod_le (s.elapsedTicks s.now k + 1) (2 ^ 32)
      omega
  · have hh : h ≠ 3 := fun hh => by
      subst hh
      exact htrig rfl
    have hprev : (s.served h).healthPrev = s.healthPrev := if_neg hh
    exact ⟨hh.symm, .inr ⟨rfl, hen, hprev ▸ htrig⟩⟩

/-- An overdue group is served within as many ticks as there are groups that contend with it, itself included: each
tick that serves another leaves one fewer. -/
theorem State.OverdueFor.served_within {s : State} {g : Group} {n : Nat} {W : Finset Group} (hcard : W.card = n)
    (hW : ∀ h, s.Contends g h → h ∈ W) (hg : s.OverdueFor g n) :
    ∃ k t, k < n ∧ execAll (List.replicate k (.tick false)) s = .next t ∧
      exec (.tick false) t = .next (t.served g) := by
  induction n generalizing s W with
  | zero =>
    obtain ⟨h, _, hh⟩ := hg.exists_contender
    exact absurd (hW h hh) (Finset.card_eq_zero.mp hcard ▸ Finset.notMem_empty h)
  | succ n ih =>
    obtain ⟨h, hdue, hh⟩ := hg.exists_contender
    have htick := exec_tick_serves hg.running (hg.ready 0 (Nat.succ_pos n)) hdue
    by_cases hne : h = g
    · exact ⟨0, s, Nat.succ_pos n, rfl, hne ▸ htick⟩
    · have hcardn : (W.erase h).card = n := by
        rw [Finset.card_erase_of_mem (hW h hh), hcard, Nat.add_sub_cancel]
      have hWn : ∀ k, (s.served h).Contends g k → k ∈ W.erase h := fun k hk => by
        obtain ⟨hkh, hk⟩ := hg.contends_of_served hne hk
        exact Finset.mem_erase.mpr ⟨hkh, hW k hk⟩
      obtain ⟨k, t, hk, hall, hserve⟩ := ih hcardn hWn (hg.served hne)
      exact ⟨k + 1, t, Nat.succ_lt_succ hk, (execAll_cons htick).trans hall, hserve⟩

/-- Settles O49: at most the eleven groups contend. -/
theorem overdueGroupIsServedWithinElevenTicks : Obligations.OverdueGroupIsServedWithinElevenTicks := by
  intro s g hm hen hover hwrap hready
  have hg : s.OverdueFor g 11 := ⟨hm, hen, hover, hwrap, hready⟩
  have hcard : (Finset.univ : Finset Group).card = 11 := Finset.card_fin 11
  obtain ⟨k, t, hk, hall, hserve⟩ := hg.served_within hcard fun h _ => Finset.mem_univ h
  exact ⟨k, t, t.served g, hk, hall, hserve, rfl, t.served_last_self g⟩

end Sys2Proof.Machine
end

section
/-! SUPPORT. POLL (spec/42_scheduler.md sections 3 and 4): the reply of the slot that answers (R75, R76), and its
counter over a list of commands (R78). -/

namespace Sys2Proof.Machine

/-! ### The two replies (R76) -/

/-- Slot number and counter as one number. -/
theorem pollData_eq_ofNat (i : Slot) (v : Byte) : pollData i v = BitVec.ofNat 32 (i.val * 256 + v.toNat) := by
  have hi : i.val < 4 := i.isLt
  have hv : v.toNat < 2 ^ 8 := v.isLt
  apply BitVec.eq_of_toNat_eq
  have hcat : (pollData i v).toNat = i.val % 2 ^ 8 * 2 ^ 8 + v.toNat := by
    rw [pollData, BitVec.toNat_append, ← Nat.shiftLeft_add_eq_or_of_lt hv, Nat.shiftLeft_eq, BitVec.toNat_append,
      BitVec.toNat_ofNat]
    simp
  rw [hcat, BitVec.toNat_ofNat]
  omega

/-- With the counter in range its advance does not wrap (spec/10_state.md R16). -/
theorem advance_toNat {v m : Byte} (h : v.toNat < m.toNat) : ((v + 1) % m).toNat = (v.toNat + 1) % m.toNat := by
  have hm : m.toNat < 2 ^ 8 := m.isLt
  rw [BitVec.toNat_umod, BitVec.toNat_add, Nat.mod_eq_of_lt (a := v.toNat + _)]
  · rfl
  · exact Nat.lt_of_le_of_lt h hm

theorem exec_poll_none {s : State} {b : Byte} (hm : s.mode = .run) (hi : s.pollSlot b = none) :
    exec (.poll b) s = .next (s.respond .none 0) := by
  rw [exec_poll, inRun_run hm, State.answerPoll, hi]

theorem exec_poll_slot {s : State} {b : Byte} {i : Slot} (hm : s.mode = .run) (hi : s.IsPollSlot b i) :
    exec (.poll b) s = .next ((s.advance i).respond .ok (pollData i s.rr[i])) := by
  rw [exec_poll, inRun_run hm, State.answerPoll, (s.pollSlot_eq_some_iff b i).mpr hi]

/-- Settles O51: the answering slot's data and counter as numbers. -/
theorem pollReportsAndAdvances : Obligations.PollReportsAndAdvances := by
  intro s b i hm hi hrange
  rw [exec_poll_slot hm hi, pollData_eq_ofNat, ← advance_toNat hrange, BitVec.ofNat_toNat, BitVec.setWidth_eq]
  rfl

/-- Settles O52: no slot answers. -/
theorem unknownPollIsIgnored : Obligations.UnknownPollIsIgnored :=
  fun s b hm hnone => exec_poll_none hm ((s.pollSlot_eq_none_iff b).mpr hnone)

/-! ### The cycle (R78) -/

/-- In RUN mode slot `i` answers the poll byte `b`, and its counter stands at `r`, in range. -/
structure State.PollsAt (s : State) (b : Byte) (i : Slot) (r : Nat) : Prop where
  running : s.mode = .run
  slot : s.IsPollSlot b i
  counter : s.rr[i].toNat = r
  range : r < s.sensM[i].toNat

/-- `PollsAt` speaks of MODE and the slots alone. -/
theorem State.PollsAt.congr {s t : State} {b : Byte} {i : Slot} {r : Nat} (h : s.PollsAt b i r)
    (hm : t.mode = s.mode) (hid : t.sensId = s.sensId) (hM : t.sensM = s.sensM) (hr : t.rr[i] = s.rr[i]) :
    t.PollsAt b i r := by
  obtain ⟨hrun, hslot, hcount, hrange⟩ := h
  exact ⟨hm.trans hrun, by rw [State.IsPollSlot, hid, hM]; exact hslot, hr ▸ hcount, hM ▸ hrange⟩

/-- A matching poll advances the counter. -/
theorem State.PollsAt.advance {s : State} {b : Byte} {i : Slot} {r : Nat} (h : s.PollsAt b i r) :
    (s.advance i).PollsAt b i ((r + 1) % s.sensM[i].toNat) := by
  obtain ⟨hrun, hslot, rfl, hrange⟩ := h
  have hcount : (s.advance i).rr[i] = (s.rr[i] + 1) % s.sensM[i] := by simp [State.advance]
  exact ⟨hrun, hslot, hcount ▸ advance_toNat hrange, Nat.mod_lt _ (Nat.zero_lt_of_lt hrange)⟩

/-- A poll of another byte that some slot answers leaves the counter. -/
theorem State.PollsAt.advance_other {s : State} {b c : Byte} {i j : Slot} {r : Nat} (h : s.PollsAt b i r)
    (hj : s.IsPollSlot c j) (hne : c ≠ b) : (s.advance j).PollsAt b i r := by
  have hij : j.val ≠ i.val := fun heq => by
    obtain rfl : j = i := Fin.ext heq
    exact hne (hj.1.2.symm.trans h.slot.1.2)
  exact h.congr rfl rfl rfl (by simp [State.advance, Vector.getElem_set_ne, hij])

/-- A command other than the matching poll leaves the slot and its counter (R78). -/
theorem State.PollsAt.exec_other {s t : State} {b : Byte} {i : Slot} {r : Nat} {c : Instr} (h : s.PollsAt b i r)
    (hc : c ≠ .poll b) (hexec : exec c s = .next t) : t.PollsAt b i r := by
  cases exec_effect hexec with
  | poll _ hj =>
    have hj := (s.pollSlot_eq_some_iff _ _).mp hj
    exact (h.advance_other hj fun heq => hc (heq ▸ rfl)).congr rfl rfl rfl rfl
  | write hm | run hm => cases hm.symm.trans h.running
  | frame _ _ hu => obtain ⟨f, k, bs, a, n, rfl⟩ := hu; exact h.congr rfl rfl rfl rfl
  | answer | pass | select | health => exact h.congr rfl rfl rfl rfl

/-- Over a list of commands the counter advances once for each matching poll, and nothing else moves it. -/
theorem State.PollsAt.after_execAll {s : State} {b : Byte} {i : Slot} {r : Nat} (h : s.PollsAt b i r)
    (cmds : List Instr) :
    ∃ t, execAll cmds s = .next t ∧ t.PollsAt b i ((r + cmds.count (.poll b)) % s.sensM[i].toNat) := by
  induction cmds generalizing s r with
  | nil => exact ⟨s, rfl, by rwa [List.count_nil, Nat.add_zero, Nat.mod_eq_of_lt h.range]⟩
  | cons c cmds ih =>
    obtain ⟨u, hexec, _⟩ := exec_answers c s
    obtain ⟨_, _, _, _, hM⟩ := (exec_effect hexec).config_frozen h.running
    rw [execAll_cons hexec, ← hM]
    by_cases hc : c = .poll b
    · subst hc
      have hu : u.PollsAt b i ((r + 1) % s.sensM[i].toNat) := by
        rw [exec_poll_slot h.running h.slot] at hexec
        injection hexec with hexec
        exact hexec ▸ h.advance.congr rfl rfl rfl rfl
      have hcount : ((r + 1) % s.sensM[i].toNat + cmds.count (.poll b)) % u.sensM[i].toNat =
          (r + (Instr.poll b :: cmds).count (.poll b)) % u.sensM[i].toNat := by
        rw [hM, Nat.mod_add_mod, List.count_cons_self, Nat.add_right_comm, Nat.add_assoc]
      exact hcount ▸ ih hu
    · rw [List.count_cons_of_ne hc]
      exact ih (h.exec_other hc hexec)

/-- Settles O53: the counter that starts at 0 stands at the number of matching polls modulo SENS_M, which the next
matching poll reports. -/
theorem pollsCycleThroughEveryValue : Obligations.PollsCycleThroughEveryValue := by
  intro s b i cmds hm hi hr
  have hM : 0 < s.sensM[i].toNat := Nat.pos_of_ne_zero fun h0 => hi.1.1 (BitVec.eq_of_toNat_eq h0)
  have hs : s.PollsAt b i 0 := ⟨hm, hi, by rw [hr]; rfl, hM⟩
  obtain ⟨t, hall, ht⟩ := hs.after_execAll cmds
  refine ⟨t, _, hall, exec_poll_slot ht.running ht.slot, ?_⟩
  rw [State.respond_responses, pollData_eq_ofNat, ht.counter, Nat.zero_add]
  rfl

end Sys2Proof.Machine
end

section
/-! SUPPORT. The invariant of the block: fresh state before INIT (spec/43_system.md R81), a valid DELIM in RUN (R83),
the counters in range (spec/10_state.md R16). -/

namespace Sys2Proof.Machine

/-- Counters at their reset value are in range whatever SENS_M is, so that CFGWR may write any. -/
theorem State.rr_range_of_fresh {s : State} (h : s.rr = Vector.replicate 4 0) (i : Slot) :
    s.rr[i].toNat < max s.sensM[i].toNat 1 := by
  simp [h]

/-- The reset gives every element that `Inv` speaks of its reset value (spec/70_reset_and_hazards.md R98). -/
theorem State.inv_afterReset (s : State) : s.afterReset.Inv where
  config_fresh _ := ⟨rfl, rfl, rfl, rfl, rfl, rfl, rfl⟩
  run_delim hm := by cases hm
  rr_range := State.rr_range_of_fresh rfl

/-- Of a RUN state `Inv` speaks of DELIM and the counters alone. -/
theorem State.Inv.congr_run {s t : State} (h : s.Inv) (hrun : s.mode = .run) (hm : t.mode = s.mode)
    (hd : t.delim = s.delim) (hM : t.sensM = s.sensM) (hr : t.rr = s.rr) : t.Inv where
  config_fresh hconf := by cases hconf.symm.trans (hm.trans hrun)
  run_delim _ := by rw [hd]; exact h.run_delim hrun
  rr_range := by rw [hM, hr]; exact h.rr_range

/-- The remainder of the advance brings the counter of a registered slot into range, and the others stay. -/
theorem State.Inv.advance {s : State} (h : s.Inv) (hrun : s.mode = .run) {i : Slot} (hi : s.sensM[i] ≠ 0) :
    (s.advance i).Inv where
  config_fresh hconf := by cases hconf.symm.trans hrun
  run_delim := h.run_delim
  rr_range j := by
    by_cases hij : i.val = j.val
    · obtain rfl : i = j := Fin.ext hij
      have hpos : 0 < s.sensM[i].toNat := Nat.pos_of_ne_zero fun h0 => hi (BitVec.eq_of_toNat_eq h0)
      have hrr : (s.advance i).rr[i] = (s.rr[i] + 1) % s.sensM[i] := by simp [State.advance]
      rw [hrr, BitVec.toNat_umod]
      exact lt_max_of_lt_left (Nat.mod_lt _ hpos)
    · have hrr : (s.advance i).rr[j] = s.rr[j] := by simp [State.advance, Vector.getElem_set_ne, hij]
      rw [hrr]
      exact h.rr_range j

/-- Every command keeps the invariant: in CONFIG mode only CFGWR and INIT write, the one with every counter at 0, the
other with a valid DELIM; in RUN mode no command touches MODE or DELIM, and only POLL a counter. -/
theorem Effect.keeps_inv {i : Instr} {s t : State} (h : Effect i s t) (hinv : s.Inv) : t.Inv := by
  cases h with
  | answer => exact ⟨hinv.config_fresh, hinv.run_delim, hinv.rr_range⟩
  | frame _ hm hu => obtain ⟨f, c, bs, a, n, rfl⟩ := hu; exact hinv.congr_run hm rfl rfl rfl rfl
  | pass hm | select hm | health hm => exact hinv.congr_run hm rfl rfl rfl rfl
  | poll hm hi =>
    have hslot := (s.pollSlot_eq_some_iff _ _).mp hi
    exact (hinv.advance hm hslot.1.1).congr_run hm rfl rfl rfl rfl
  | write hm _ hu =>
    obtain ⟨_, _, _, _, _, _, hrr⟩ := hinv.config_fresh hm
    obtain ⟨d, e, n, a, m, rfl⟩ := State.writeReg_frame hu
    exact ⟨hinv.config_fresh, fun hrun => (by cases hm.symm.trans hrun), State.rr_range_of_fresh hrr⟩
  | run _ hd => exact ⟨nofun, fun _ => hd, hinv.rr_range⟩

/-- Settles O20: a command keeps the invariant by its effect, and the reset establishes it. -/
theorem stepKeepsTheInvariant : Obligations.StepKeepsTheInvariant := by
  intro s t hinv h
  rcases step_cases h with ⟨_, rfl⟩ | ⟨rest, _, rfl⟩ | ⟨w, rest, i, _, _, hexec⟩ | ⟨w, rest, e, _, _, rfl⟩
  · exact hinv
  · exact State.inv_afterReset _
  · exact (exec_effect hexec).keeps_inv (hinv.withInputs rest)
  · exact ⟨hinv.config_fresh, hinv.run_delim, hinv.rr_range⟩

end Sys2Proof.Machine
end

section
/-! SUPPORT. The system commands (spec/43_system.md): the register map (spec/20_memory.md R28), CFGWR (R79), CFGRD
(R80), INIT (R81) and the conditions on DELIM (R83). -/

namespace Sys2Proof.Machine

/-! ### The register map (spec/20_memory.md R28) -/

theorem regOfIndex_interval (g : Group) : regOfIndex (BitVec.ofNat 8 (0x10 + g.val)) = some (.interval g) := by
  revert g; decide

theorem regOfIndex_last (g : Group) : regOfIndex (BitVec.ofNat 8 (0x20 + g.val)) = some (.last g) := by
  revert g; decide

theorem regOfIndex_sensor (i : Slot) : regOfIndex (BitVec.ofNat 8 (0x30 + i.val)) = some (.sensor i) := by
  revert i; decide

theorem writableIndex_iff (a : Byte) :
    writableIndex a = true ↔
      a = 0x01 ∨ a = 0x02 ∨ (0x10 ≤ a.toNat ∧ a.toNat ≤ 0x1A) ∨ (0x30 ≤ a.toNat ∧ a.toNat ≤ 0x33) := by
  have h1 : a = 0x01 ↔ a.toNat = 0x01 := BitVec.toNat_inj.symm
  have h2 : a = 0x02 ↔ a.toNat = 0x02 := BitVec.toNat_inj.symm
  simp only [writableIndex, config_nGroup_eq, config_nSens_eq, Bool.or_eq_true, Bool.and_eq_true, beq_iff_eq,
    decide_eq_true_eq, h1, h2]
  omega

theorem implementedIndex_iff (a : Byte) :
    implementedIndex a = true ↔
      a.toNat ≤ 0x05 ∨ (0x10 ≤ a.toNat ∧ a.toNat ≤ 0x1A) ∨ (0x20 ≤ a.toNat ∧ a.toNat ≤ 0x2A) ∨
        (0x30 ≤ a.toNat ∧ a.toNat ≤ 0x33) := by
  simp only [implementedIndex, config_nGroup_eq, config_nSens_eq, Bool.or_eq_true, Bool.and_eq_true,
    decide_eq_true_eq]
  omega

/-! ### CFGWR (R79) -/

theorem exec_cfgwr_write {s u : State} {a : Byte} {v : Word} {r : Reg} (hm : s.mode = .config)
    (hr : regOfIndex a = some r) (hu : s.writeReg v r = some u) : exec (.cfgwr a v) s = .next (u.respond .ok 0) := by
  rw [exec_cfgwr, inConfig_config hm, State.configure, hr, Option.bind_some, hu]

theorem exec_cfgwr_refused {s : State} {a : Byte} (hm : s.mode = .config) (ha : ¬writableIndex a = true) (v : Word) :
    exec (.cfgwr a v) s = .next (s.respond .illegal 0) := by
  rw [← writeReg_isSome s v, Option.not_isSome_iff_eq_none] at ha
  rw [exec_cfgwr, inConfig_config hm, State.configure, ha]
  rfl

theorem exec_cfgwr_run {s : State} (hm : s.mode = .run) (a : Byte) (v : Word) :
    exec (.cfgwr a v) s = .next (s.respond .illegal 0) := by
  rw [exec_cfgwr, inConfig_run hm]

/-- Settles O54: the RW registers by their rows of the map, and the refusals of the index and of the mode. -/
theorem cfgwrWritesTheNamedRegister : Obligations.CfgwrWritesTheNamedRegister := by
  intro s v
  refine ⟨fun hm => ⟨?delim, ?groupEn, fun g => ?interval, fun i => ?sensor, fun a h1 h2 hint hsens => ?other⟩,
    fun hm a => exec_cfgwr_run hm a v⟩
  case delim => exact exec_cfgwr_write (r := .delim) hm rfl rfl
  case groupEn => exact exec_cfgwr_write (r := .groupEn) hm rfl rfl
  case interval =>
    have hu : s.writeReg v (.interval g) = some { s with interval := s.interval.set g v } := by
      rw [State.writeReg, BitVec.setWidth_eq]
    exact exec_cfgwr_write hm (regOfIndex_interval g) hu
  case sensor => exact exec_cfgwr_write hm (regOfIndex_sensor i) rfl
  case other =>
    have ha : ¬writableIndex a = true := by
      simp only [writableIndex_iff, h1, h2, hint, hsens, or_self, not_false_eq_true]
    exact exec_cfgwr_refused hm ha v

/-! ### CFGRD (R80) -/

/-- STATUS as a number: MODE in bit 0, FSTATE in bits 2:1. -/
theorem statusView_eq_ofNat (f : FState) (m : Mode) :
    statusView f m = BitVec.ofNat 32
      ((match m with | .config => 0 | .run => 1) +
        2 * (match f with | .idle => 0 | .opened => 1 | .abandoned => 2)) := by
  cases f <;> cases m <;> rfl

theorem toNat_append_eq_mul_add {m n : Nat} (x : BitVec m) (y : BitVec n) :
    (x ++ y).toNat = x.toNat * 2 ^ n + y.toNat := by
  rw [BitVec.toNat_append, ← Nat.shiftLeft_add_eq_or_of_lt y.isLt, Nat.shiftLeft_eq]

/-- SENSORi as a number: SENS_ID below SENS_M below RR. -/
theorem sensorView_eq_ofNat (id m r : Byte) :
    (0 : Byte) ++ r ++ m ++ id = BitVec.ofNat 32 (id.toNat + 256 * m.toNat + 65536 * r.toNat) := by
  have hzero : (0 : Byte).toNat = 0 := rfl
  apply BitVec.eq_of_toNat_eq
  rw [toNat_append_eq_mul_add, toNat_append_eq_mul_add, toNat_append_eq_mul_add, hzero, BitVec.toNat_ofNat]
  omega

/-- Settles O55: each row of the map by its register, the composed views as numbers; an index without a row names no
register. -/
theorem cfgrdAnswersTheRegisterView : Obligations.CfgrdAnswersTheRegisterView := by
  intro s reads
  have reads_of {a : Byte} {r : Reg} {v : Word} (ha : regOfIndex a = some r) (hv : s.readReg r = v) : reads a v :=
    hv ▸ exec_cfgrd ha s
  refine ⟨?status, ?delim, ?groupEn, ?now, ?healthCur, ?healthPrev, fun g => ⟨?interval, ?last⟩, fun i => ?sensor,
    fun a hlow hint hlast hsens => ?other⟩
  case status => exact reads_of (r := .status) rfl (statusView_eq_ofNat s.fstate s.mode)
  case delim => exact reads_of (r := .delim) rfl rfl
  case groupEn => exact reads_of (r := .groupEn) rfl (BitVec.ofNat_toNat 32 s.groupEn).symm
  case now => exact reads_of (r := .now) rfl s.now.setWidth_eq
  case healthCur => exact reads_of (r := .healthCur) rfl s.healthCur.setWidth_eq
  case healthPrev => exact reads_of (r := .healthPrev) rfl s.healthPrev.setWidth_eq
  case interval => exact reads_of (regOfIndex_interval g) s.interval[g].setWidth_eq
  case last => exact reads_of (regOfIndex_last g) s.last[g].setWidth_eq
  case sensor => exact reads_of (regOfIndex_sensor i) (sensorView_eq_ofNat s.sensId[i] s.sensM[i] s.rr[i])
  case other =>
    have ha : ¬implementedIndex a = true := by
      simp only [implementedIndex_iff, hlow, hint, hlast, hsens, or_self, not_false_eq_true]
    rw [← regOfIndex_isSome, Option.not_isSome_iff_eq_none] at ha
    exact exec_cfgrd_illegal ha s

/-! ### INIT (R81) -/

theorem State.enterRun_valid {s : State} (h : delimValid s.delim = true) :
    s.enterRun = State.respond { s with mode := .run } .ok 0 := by
  simp [State.enterRun, h]

theorem State.enterRun_invalid {s : State} (h : delimValid s.delim = false) : s.enterRun = s.respond .initFail 0 := by
  simp [State.enterRun, h]

/-- Settles O56: the mode check (spec/60_exceptions.md R94), then the check of DELIM. -/
theorem initEntersRunOrFailsFast : Obligations.InitEntersRunOrFailsFast := by
  intro s
  rw [exec_init]
  refine ⟨fun hm hd => ?_, fun hm hd => ?_, fun hm => inConfig_run hm _⟩
  · rw [inConfig_config hm, State.enterRun_valid hd]
    rfl
  · rw [inConfig_config hm, State.enterRun_invalid hd]
    rfl

/-! ### The conditions on DELIM (R83) -/

/-- The reserved set R of R83. -/
def reservedSet (d : Word) : List Byte := [startByte d, stopByte d, escByte d]

theorem reserved_iff_mem (d : Word) (b : Byte) : reserved d b = true ↔ b ∈ reservedSet d := by
  simp [reserved_iff, reservedSet]

theorem delimValid_iff (d : Word) :
    delimValid d = true ↔
      (escByte d ≠ startByte d ∧ escByte d ≠ stopByte d) ∧ maskByte d ≠ 0 ∧
        ∀ r ∈ reservedSet d, r ^^^ maskByte d ∉ reservedSet d := by
  have hset : (∀ r ∈ reservedSet d, r ^^^ maskByte d ∉ reservedSet d) ↔
      reserved d (startByte d ^^^ maskByte d) = false ∧ reserved d (stopByte d ^^^ maskByte d) = false ∧
        reserved d (escByte d ^^^ maskByte d) = false := by
    simp only [← reserved_iff_mem, Bool.not_eq_true]
    simp [reserved_iff]
  simp only [hset, delimValid, Bool.and_eq_true, bne_iff_ne, Bool.not_eq_true', and_assoc]

section
variable (start stop esc mask : Byte)

theorem startByte_append : startByte (mask ++ esc ++ stop ++ start) = start :=
  BitVec.extractLsb'_append_eq_right

theorem stopByte_append : stopByte (mask ++ esc ++ stop ++ start) = stop :=
  (BitVec.extractLsb'_append_eq_of_le (by decide)).trans BitVec.extractLsb'_append_eq_right

theorem escByte_append : escByte (mask ++ esc ++ stop ++ start) = esc :=
  (BitVec.extractLsb'_append_eq_of_le (by decide)).trans <|
    (BitVec.extractLsb'_append_eq_of_le (by decide)).trans BitVec.extractLsb'_append_eq_right

theorem maskByte_append : maskByte (mask ++ esc ++ stop ++ start) = mask :=
  (BitVec.extractLsb'_append_eq_of_le (by decide)).trans <|
    (BitVec.extractLsb'_append_eq_of_le (by decide)).trans BitVec.extractLsb'_append_eq_left

end

/-- Settles O57: the conditions on the four bytes of an assembled DELIM; the reset value is one of them. -/
theorem delimValidityConditions : Obligations.DelimValidityConditions := by
  refine ⟨fun start stop esc mask => ?_, by decide⟩
  rw [delimValid_iff, reservedSet, startByte_append, stopByte_append, escByte_append, maskByte_append]

end Sys2Proof.Machine
end

section
/-! SUPPORT. The exceptional answers (spec/60_exceptions.md): ILLEGAL from the mode table or an operand check (R86, R92,
R94), SEQERR with no frame open (R87), and the idle block (R96). -/

namespace Sys2Proof.Machine

/-! ### Between commands (R96) -/

theorem step_of_no_input {s : State} (h : s.inputs = []) : step s = .next s := by
  rw [step, h]

/-- Settles O10: without an input the step takes its idle branch. -/
theorem idleStepChangesNothing : Obligations.IdleStepChangesNothing :=
  fun _ => step_of_no_input

/-! ### ILLEGAL (R86, R92, R94) -/

/-- A RUN-only command in CONFIG mode: its mode check answers. -/
theorem exec_of_run_only {i : Instr} {s : State} (hm : s.mode = .config) (h : legalInMode i .config = false) :
    exec i s = .next (s.respond .illegal 0) := by
  have hdata {bs : List Byte} (hi : dataBytes i = some bs) : exec i s = .next (s.respond .illegal 0) :=
    (exec_dataBytes hi s).trans (inRun_config hm _)
  cases i with
  | fbyte b => exact hdata rfl
  | fw16 hdr id v => exact hdata rfl
  | fw32 hdr id v => exact hdata rfl
  | fbegin => exact (exec_fbegin s).trans (inRun_config hm _)
  | fend => exact (exec_fend s).trans (inRun_config hm _)
  | tick c => exact (exec_tick c s).trans (inRun_config hm _)
  | sethm m => exact (exec_sethm m s).trans (inRun_config hm _)
  | poll b => exact (exec_poll b s).trans (inRun_config hm _)
  | pack | unpack | dsplit | cfgrd | cfgwr | init => cases h

/-- A CONFIG-only command in RUN mode: its mode check answers. -/
theorem exec_of_config_only {i : Instr} {s : State} (hm : s.mode = .run) (h : legalInMode i .run = false) :
    exec i s = .next (s.respond .illegal 0) := by
  cases i with
  | cfgwr a v => exact exec_cfgwr_run hm a v
  | init => exact (exec_init s).trans (inConfig_run hm _)
  | fbegin | fbyte | fw16 | fw32 | fend | tick | sethm | poll | pack | unpack | dsplit | cfgrd => cases h

theorem exec_of_wrong_mode {i : Instr} {s : State} (h : legalInMode i s.mode = false) :
    exec i s = .next (s.respond .illegal 0) := by
  cases hm : s.mode with
  | config => exact exec_of_run_only hm (hm ▸ h)
  | run => exact exec_of_config_only hm (hm ▸ h)

/-- An operand out of range is ILLEGAL in either mode (spec/30_encoding.md R38(c)). -/
theorem exec_of_ill_formed {i : Instr} {s : State} (h : i.wellFormed = false) :
    exec i s = .next (s.respond .illegal 0) := by
  have none_of {α : Type} {o : Option α} (ho : o.isSome = false) : o = none :=
    Option.not_isSome_iff_eq_none.mp (Bool.eq_false_iff.mp ho)
  cases i with
  | pack row v => exact exec_pack_illegal (none_of ((fieldRow_isSome row).trans h)) v s
  | unpack row w => exact exec_unpack_illegal (none_of ((fieldRow_isSome row).trans h)) w s
  | dsplit k v => exact exec_dsplit_illegal (Nat.lt_of_not_le (of_decide_eq_false h)) v s
  | cfgwr a v =>
    cases hm : s.mode with
    | config => exact exec_cfgwr_refused hm (Bool.eq_false_iff.mp h) v
    | run => exact exec_cfgwr_run hm a v
  | cfgrd a => exact exec_cfgrd_illegal (none_of ((regOfIndex_isSome a).trans h)) s
  | fbegin | fbyte | fw16 | fw32 | fend | tick | sethm | poll | init => cases h

/-! ### A legal command is not answered ILLEGAL -/

/-- From `s` to `t` one response is added, of another status than ILLEGAL. -/
def LegallyAnswered (s t : State) : Prop := ∃ r, t.responses = s.responses ++ [r] ∧ r.status ≠ .illegal

theorem legallyAnswered_respond {s u : State} {st : Status} (hu : u.responses = s.responses) (d : Word)
    (hst : st ≠ .illegal := by decide) : LegallyAnswered s (u.respond st d) :=
  ⟨⟨st, d⟩, by rw [State.respond_responses, hu], hst⟩

theorem frameStatus_ne_illegal (f : FState) : frameStatus f ≠ .illegal := by
  cases f <;> simp [frameStatus]

theorem legallyAnswered_framed {s : State} {body : State → State} (h : s.Emits (body s)) :
    LegallyAnswered s (s.framed body) :=
  legallyAnswered_respond h.responses _ (frameStatus_ne_illegal _)

theorem legallyAnswered_sendBytes (s : State) (bs : List Byte) :
    LegallyAnswered s (s.inFrame fun s => s.sendBytes bs) := by
  rcases s.inFrame_cases (fun s => s.sendBytes bs) with ⟨_, h⟩ | ⟨_, h⟩ | ⟨_, h⟩ <;> rw [h]
  · exact legallyAnswered_respond rfl 0
  · exact legallyAnswered_respond rfl 0
  · exact legallyAnswered_framed (s.emits_sendBytes bs)

theorem legallyAnswered_closeFrame (s : State) : LegallyAnswered s s.closeFrame := by
  have hend : LegallyAnswered s s.endFrame := legallyAnswered_framed s.emits_sendTrailer
  unfold State.closeFrame
  split
  · exact legallyAnswered_respond rfl 0
  · exact hend
  · exact hend

theorem legallyAnswered_tickOutcome (c : Bool) (s : State) : LegallyAnswered s (s.tickOutcome c) := by
  unfold State.tickOutcome
  split
  · exact legallyAnswered_respond rfl 0
  · split
    · exact legallyAnswered_respond rfl 0
    · unfold State.decideGroup
      split <;> exact legallyAnswered_respond rfl _

theorem legallyAnswered_answerPoll (b : Byte) (s : State) : LegallyAnswered s (s.answerPoll b) := by
  unfold State.answerPoll
  split <;> exact legallyAnswered_respond rfl _

theorem legallyAnswered_enterRun (s : State) : LegallyAnswered s s.enterRun := by
  unfold State.enterRun
  split <;> exact legallyAnswered_respond rfl 0

/-- The write of a RW register goes through (spec/43_system.md R79). -/
theorem legallyAnswered_configure {a : Byte} (ha : writableIndex a = true) (v : Word) (s : State) :
    LegallyAnswered s (s.configure a v) := by
  rw [← writeReg_isSome s v, Option.isSome_iff_exists] at ha
  obtain ⟨u, hu⟩ := ha
  obtain ⟨r, _, hwrite⟩ := Option.bind_eq_some_iff.mp hu
  obtain ⟨d, e, n, i, m, rfl⟩ := State.writeReg_frame hwrite
  rw [State.configure, hu]
  exact legallyAnswered_respond rfl 0

/-- The command goes to a next state with one more response, of another status than ILLEGAL. -/
def AnswersLegally (i : Instr) (s : State) : Prop := ∃ t, exec i s = .next t ∧ LegallyAnswered s t

theorem answersLegally_of_ok {i : Instr} {s : State} {d : Word} (h : exec i s = .next (s.respond .ok d)) :
    AnswersLegally i s :=
  ⟨_, h, legallyAnswered_respond rfl d⟩

theorem answersLegally_of_inRun {i : Instr} {s : State} {body : State → State} (hm : s.mode = .run)
    (hb : LegallyAnswered s (body s)) (h : exec i s = inRun s body) : AnswersLegally i s :=
  ⟨_, h.trans (inRun_run hm body), hb⟩

theorem answersLegally_of_inConfig {i : Instr} {s : State} {body : State → State} (hm : s.mode = .config)
    (hb : LegallyAnswered s (body s)) (h : exec i s = inConfig s body) : AnswersLegally i s :=
  ⟨_, h.trans (inConfig_config hm body), hb⟩

/-- Every command that is legal in MODE and whose operands are in range is answered with another status. -/
theorem exec_answersLegally {i : Instr} {s : State} (hmode : legalInMode i s.mode = true)
    (hwf : i.wellFormed = true) : AnswersLegally i s := by
  have hdata {bs : List Byte} (hi : dataBytes i = some bs) (hm : s.mode = .run) : AnswersLegally i s :=
    answersLegally_of_inRun hm (legallyAnswered_sendBytes s bs) (exec_dataBytes hi s)
  cases i with
  | fbegin =>
    exact answersLegally_of_inRun (eq_of_beq hmode) (legallyAnswered_framed s.emits_beginFrame) (exec_fbegin s)
  | fbyte b => exact hdata rfl (eq_of_beq hmode)
  | fw16 hdr id v => exact hdata rfl (eq_of_beq hmode)
  | fw32 hdr id v => exact hdata rfl (eq_of_beq hmode)
  | fend => exact answersLegally_of_inRun (eq_of_beq hmode) (legallyAnswered_closeFrame s) (exec_fend s)
  | pack row v =>
    obtain ⟨f, hf⟩ := Option.isSome_iff_exists.mp ((fieldRow_isSome row).trans hwf)
    exact answersLegally_of_ok (exec_pack hf v s)
  | unpack row w =>
    obtain ⟨f, hf⟩ := Option.isSome_iff_exists.mp ((fieldRow_isSome row).trans hwf)
    exact answersLegally_of_ok (exec_unpack hf w s)
  | dsplit k v => exact answersLegally_of_ok (exec_dsplit (of_decide_eq_true hwf) v s)
  | tick c => exact answersLegally_of_inRun (eq_of_beq hmode) (legallyAnswered_tickOutcome c s) (exec_tick c s)
  | sethm m =>
    exact answersLegally_of_inRun (eq_of_beq hmode) (legallyAnswered_respond rfl 0) (exec_sethm m s)
  | poll b => exact answersLegally_of_inRun (eq_of_beq hmode) (legallyAnswered_answerPoll b s) (exec_poll b s)
  | cfgwr a v =>
    exact answersLegally_of_inConfig (eq_of_beq hmode) (legallyAnswered_configure hwf v s) (exec_cfgwr a v s)
  | cfgrd a =>
    obtain ⟨r, hr⟩ := Option.isSome_iff_exists.mp ((regOfIndex_isSome a).trans hwf)
    exact answersLegally_of_ok (exec_cfgrd hr s)
  | init => exact answersLegally_of_inConfig (eq_of_beq hmode) (legallyAnswered_enterRun s) (exec_init s)

/-- Settles O12: the two ways to ILLEGAL, and the answers of a command that takes neither. -/
theorem illegalExactlyByModeOrOperand : Obligations.IllegalExactlyByModeOrOperand := by
  intro i s
  refine ⟨fun h => ?illegal, fun hmode hwf => ?legal⟩
  case illegal =>
    rcases not_and_or.mp h with hmode | hwf
    · exact exec_of_wrong_mode (Bool.eq_false_iff.mpr hmode)
    · exact exec_of_ill_formed (Bool.eq_false_iff.mpr hwf)
  case legal =>
    obtain ⟨t, h, r, hr, hst⟩ := exec_answersLegally hmode hwf
    exact ⟨t, r, h, hr, hst⟩

/-! ### SEQERR, and when no frame is open (R87) -/

theorem exec_data_idle {i : Instr} {bs : List Byte} {s : State} (hi : dataBytes i = some bs) (hm : s.mode = .run)
    (hf : s.fstate = .idle) : exec i s = .next (s.respond .seqErr 0) := by
  rw [exec_dataBytes hi, inRun_run hm, State.inFrame_idle hf]

theorem exec_fend_idle {s : State} (hm : s.mode = .run) (hf : s.fstate = .idle) :
    exec .fend s = .next (s.respond .seqErr 0) := by
  rw [exec_fend, inRun_run hm, State.closeFrame, hf]
  rfl

/-- FBEGIN is no producer of SEQERR in the table of spec/30_encoding.md R39. -/
theorem exec_fbegin_ne_seqErr (s : State) :
    ∃ t r, exec .fbegin s = .next t ∧ t.responses = s.responses ++ [r] ∧ r.status ≠ .seqErr := by
  obtain ⟨t, h, r, hr, _⟩ := exec_answers .fbegin s
  obtain ⟨_, _, _, _, _, hproducers, _⟩ := statusesComeFromTheirCommands .fbegin s t r h hr
  refine ⟨t, r, h, hr, fun hseq => ?_⟩
  rcases hproducers hseq with hi | ⟨_, hi⟩ <;> cases hi

/-- FBEGIN leaves the frame open or abandoned (spec/40_framer.md R50). -/
theorem State.beginFrame_fstate_ne_idle (s : State) : s.beginFrame.fstate ≠ .idle := by
  cases hr : s.readyAt 0 with
  | true => rw [State.beginFrame_accepted hr]; nofun
  | false => rw [State.beginFrame_refused hr]; nofun

/-- Bytes sent in an open frame leave it open or abandoned (spec/40_framer.md R47). -/
theorem State.sendBytes_fstate_ne_idle {s : State} (ho : s.fstate = .opened) (bs : List Byte) :
    (s.sendBytes bs).fstate ≠ .idle := by
  rcases s.accepts_or_refuses (stuffAll s.delim bs).length with ha | ⟨k, hk, hr⟩
  · rw [State.sendBytes_accepted ho ha]
    simp [ho]
  · rw [State.sendBytes_refused ho hk hr]
    nofun

/-- A data command opens no frame and ends none. -/
theorem State.inFrame_sendBytes_idle_iff (s : State) (bs : List Byte) :
    (s.inFrame fun s => s.sendBytes bs).fstate = .idle ↔ s.fstate = .idle := by
  rcases s.inFrame_cases (fun s => s.sendBytes bs) with ⟨_, h⟩ | ⟨_, h⟩ | ⟨ho, h⟩ <;> rw [h]
  · rfl
  · rfl
  · exact iff_of_false (State.sendBytes_fstate_ne_idle ho bs) (by simp [ho])

/-- Outside RUN mode, or with no framer command, FSTATE stays: the framer commands are RUN-only (R94). -/
theorem exec_keeps_fstate {i : Instr} {s t : State} (h : exec i s = .next t) (hi : ¬(isFramer i ∧ s.mode = .run)) :
    t.fstate = s.fstate := by
  cases exec_effect h with
  | frame hframer hm => exact absurd ⟨hframer, hm⟩ hi
  | write _ _ hu => obtain ⟨d, e, n, a, m, rfl⟩ := State.writeReg_frame hu; rfl
  | answer | pass | select | health | poll | run => rfl

/-- FSTATE is IDLE until FBEGIN and again after FEND, in RUN mode. -/
theorem exec_fstate_idle_iff {i : Instr} {s t : State} (h : exec i s = .next t) :
    t.fstate = .idle ↔
      (s.fstate = .idle ∧ ¬(i = .fbegin ∧ s.mode = .run)) ∨ (i = .fend ∧ s.mode = .run) := by
  by_cases hi : isFramer i ∧ s.mode = .run
  · obtain ⟨rfl | rfl | ⟨bs, hbs⟩, hm⟩ := hi
    · rw [exec_fbegin, inRun_run hm] at h
      injection h with h
      subst h
      have hne : (s.framed State.beginFrame).fstate ≠ .idle := s.beginFrame_fstate_ne_idle
      simp [hne, hm]
    · rw [exec_fend, inRun_run hm] at h
      injection h with h
      subst h
      simp [s.closeFrame_fstate, hm]
    · have hbegin : i ≠ .fbegin := by rintro rfl; cases hbs
      have hend : i ≠ .fend := by rintro rfl; cases hbs
      rw [exec_dataBytes hbs, inRun_run hm] at h
      injection h with h
      subst h
      simp [s.inFrame_sendBytes_idle_iff, hbegin, hend]
  · have hbegin : ¬(i = .fbegin ∧ s.mode = .run) := fun ⟨h1, hm⟩ => hi ⟨.inl h1, hm⟩
    have hend : ¬(i = .fend ∧ s.mode = .run) := fun ⟨h1, hm⟩ => hi ⟨.inr (.inl h1), hm⟩
    rw [exec_keeps_fstate h hi]
    simp [hbegin, hend]

/-- Settles O27: the guard of each command that needs a frame, FBEGIN's answers, and FSTATE after every command. -/
theorem noOpenFrameAnswersSeqerr : Obligations.NoOpenFrameAnswersSeqerr := by
  refine ⟨fun i s hi hm hf => ?_, exec_fbegin_ne_seqErr, fun _ _ _ => exec_fstate_idle_iff⟩
  rcases hi with ⟨bs, hbs⟩ | rfl
  · exact exec_data_idle hbs hm hf
  · exact exec_fend_idle hm hf

end Sys2Proof.Machine
end

section
/-! SUPPORT. Reset (spec/70_reset_and_hazards.md section 1): the values of the state's arrays, the step on the reset
event (R98), and the invariants in the state that runs begin with. -/

namespace Sys2Proof.Machine

/-- The timer and the interval of every group are 0 after reset (spec/10_state.md R12, R13). -/
theorem State.reset_group (g : Group) : State.reset.last[g] = 0 ∧ State.reset.interval[g] = 0 := by
  have hlast : State.reset.last = Vector.replicate 11 0 := rfl
  have hinterval : State.reset.interval = Vector.replicate 11 0 := rfl
  simp [hlast, hinterval]

/-- No slot is registered after reset, and every counter is 0 (spec/10_state.md R16). -/
theorem State.reset_slot (i : Slot) :
    State.reset.sensId[i] = 0 ∧ State.reset.sensM[i] = 0 ∧ State.reset.rr[i] = 0 := by
  have hid : State.reset.sensId = Vector.replicate 4 0 := rfl
  have hM : State.reset.sensM = Vector.replicate 4 0 := rfl
  have hrr : State.reset.rr = Vector.replicate 4 0 := rfl
  simp [hid, hM, hrr]

/-- Settles O7: the arrays by their lemmas, the other elements by the definition of the reset state. -/
theorem resetStateHoldsResetValues : Obligations.ResetStateHoldsResetValues :=
  ⟨rfl, rfl, rfl, rfl, State.reset_group, rfl, rfl, rfl, State.reset_slot, rfl⟩

/-- The step takes the reset event off the list and resets the block. -/
theorem step_of_reset {s : State} {rest : List Input} (h : s.inputs = .reset :: rest) :
    step s = .next (State.afterReset { s with inputs := rest }) := by
  unfold step
  rw [h]

/-- Settles O9: after the reset event every element of the block's state is that of the reset state (O7), and WIRE
is the one from before. -/
theorem resetEventRestoresResetValues : Obligations.ResetEventRestoresResetValues :=
  fun s rest h => ⟨_, step_of_reset h, State.afterReset_wire { s with inputs := rest }, resetStateHoldsResetValues⟩

/-- A reset right after reset changes nothing. -/
theorem State.afterReset_reset : State.reset.afterReset = State.reset := rfl

/-- Settles O19: the reset establishes `Inv`, no frame is open after it, and no timer has run. -/
theorem resetMeetsTheInvariants : Obligations.ResetMeetsTheInvariants := by
  refine ⟨?_, State.frameOnWire_of_ne nofun, State.disabledUntouched_of_fresh rfl rfl⟩
  rw [← State.afterReset_reset]
  exact State.inv_afterReset _

end Sys2Proof.Machine
end
